-- ==== Sys2Proof/Word.lean ====
section
/-! DEFINITION. The words of the machine: the byte and the byte sequence (00_scope.md R10, R12). -/

namespace Sys2Proof

/-- A byte: 8 bits (R8 `BYTE_BITS`, R10). -/
abbrev Byte := BitVec 8

/-- A byte sequence (R12): the window, a frame, the bytes of a value. Oldest or lowest byte first. -/
abbrev Bytes := List Byte

/-- An offset into a client buffer: `OFFSET_BITS` = 32 bits, unsigned (R8, R42). -/
abbrev Offset := BitVec 32

end Sys2Proof
end

