-- ==== Sys2Proof/Syntax.lean ====
section
/-! DEFINITION. The operations of the block (30_encoding.md R74), one constructor of `Instr` per row of the opcode table, the
field types (R68), the values on the value port (R69), and the commands the host puts on the block's ports (R71, R72). -/

namespace Sys2Proof

/-- The 9 field types, in the document's order (R9, R68). -/
inductive FieldType where
  | u8 | s8 | u16 | s16 | u32 | s32 | u64 | s64 | float
  deriving DecidableEq, Repr

/-- A bit vector on the value port: exactly `8 * width(T)` bits, so one of four widths (R69, R132, R135). -/
inductive Value where
  | w8  (v : BitVec 8)
  | w16 (v : BitVec 16)
  | w32 (v : BitVec 32)
  | w64 (v : BitVec 64)
  deriving DecidableEq, Repr

/-- What the host puts on the block's ports when it issues an operation. The command word selects the operation; the operands
travel beside it (R71). The client buffer is an operand too and stands on its own port (`State.buffer`). -/
inductive Command where
  /-- Format FR, 9 bits: `reinit[8]`, `byte[7:0]` (R72). -/
  | framer (word : BitVec 9)
  /-- Format FT, 6 bits: `op[5:4]`, `type[3:0]`, with the `offset` and `wdata` operands (R71). WIDTH reads neither operand and
  READ does not read `wdata`. -/
  | fieldType (word : BitVec 6) (offset : Offset) (wdata : Value)
  deriving DecidableEq, Repr

/-- The 29 operations (R74) with the operands each one takes: a byte for PUSH, an offset for READ.T, an offset and a value of
exactly `8 * width(T)` bits for WRITE.T (R135). -/
inductive Instr where
  | push (b : Byte)
  | reinit
  | widthU8
  | widthS8
  | widthU16
  | widthS16
  | widthU32
  | widthS32
  | widthU64
  | widthS64
  | widthFloat
  | readU8 (offset : Offset)
  | readS8 (offset : Offset)
  | readU16 (offset : Offset)
  | readS16 (offset : Offset)
  | readU32 (offset : Offset)
  | readS32 (offset : Offset)
  | readU64 (offset : Offset)
  | readS64 (offset : Offset)
  | readFloat (offset : Offset)
  | writeU8 (offset : Offset) (wdata : BitVec 8)
  | writeS8 (offset : Offset) (wdata : BitVec 8)
  | writeU16 (offset : Offset) (wdata : BitVec 16)
  | writeS16 (offset : Offset) (wdata : BitVec 16)
  | writeU32 (offset : Offset) (wdata : BitVec 32)
  | writeS32 (offset : Offset) (wdata : BitVec 32)
  | writeU64 (offset : Offset) (wdata : BitVec 64)
  | writeS64 (offset : Offset) (wdata : BitVec 64)
  | writeFloat (offset : Offset) (wdata : BitVec 32)
  deriving DecidableEq, Repr

end Sys2Proof
end

