-- ==== Sys2Proof/WellFormed.lean ====
section
/-! DEFINITION. Which commands the host may present. An `Instr` is well formed by its type: every operand has exactly the width
the encoding gives it. A command can be ill formed in one way: a WRITE.T word with a value of another width than `8 * width(T)`
(DEDUCED, log entry 6: 42_fieldtype_write.md R135; 70_reset_and_hazards.md R204, "present a value of exactly `8 * width(T)` bits"). -/

namespace Sys2Proof

/-- The number of bits a value on the port has. -/
def Value.bits : Value → Nat
  | .w8 _ => 8
  | .w16 _ => 16
  | .w32 _ => 32
  | .w64 _ => 64

/-- For the FT word of a WRITE.T, the number of bits its `wdata` must have, read off the rows of R74 and the widths of R68;
`none` for a word that is no WRITE.T. -/
def wdataBitsOf (word : BitVec 6) : Option Nat :=
  if word = 0x20#6 ∨ word = 0x21#6 then some 8
  else if word = 0x22#6 ∨ word = 0x23#6 then some 16
  else if word = 0x24#6 ∨ word = 0x25#6 ∨ word = 0x28#6 then some 32
  else if word = 0x26#6 ∨ word = 0x27#6 then some 64
  else none

/-- A command is well formed when a WRITE.T word comes with a value of that type's width (R135). -/
def Command.wellFormed : Command → Bool
  | .framer _ => true
  | .fieldType word _ wdata =>
    match wdataBitsOf word with
    | none => true
    | some n => wdata.bits == n

end Sys2Proof
end

