-- ==== Sys2Proof/Decode.lean ====
section
/-! DEFINITION. Decoding the command words (30_encoding.md R71 to R75) and, after it, the encoder written from the table of
R74. Decoding is total (R73): a word is one of the 29 operations or a reserved word that is named. -/

namespace Sys2Proof

/-- What a command decodes to. -/
inductive Decoded where
  /-- one of the 29 operations -/
  | op (i : Instr)
  /-- an FT word with `op = 3`: it faults `IllegalOp` (R75, R167) -/
  | illegalOp
  /-- an FT word with `op` 0 to 2 and `type` 9 to 15: it faults `IllegalType` (R75, R168) -/
  | illegalType
  /-- a WRITE.T whose `wdata` has not `8 * width(T)` bits: the spec gives it no meaning (R135; DEDUCED,
  log entry 6) -/
  | wdataWidth
  deriving DecidableEq, Repr

/-- The type code of a field type (R68; codes 1 to 7 are the spec's decision D10, log entry 9). -/
def FieldType.code : FieldType → BitVec 4
  | .u8 => 0
  | .s8 => 1
  | .u16 => 2
  | .s16 => 3
  | .u32 => 4
  | .s32 => 5
  | .u64 => 6
  | .s64 => 7
  | .float => 8

/-- The field type a code names; codes 9 to 15 name none (R68, R71). -/
def FieldType.ofCode (c : BitVec 4) : Option FieldType :=
  if c = 0 then some .u8
  else if c = 1 then some .s8
  else if c = 2 then some .u16
  else if c = 3 then some .s16
  else if c = 4 then some .u32
  else if c = 5 then some .s32
  else if c = 6 then some .u64
  else if c = 7 then some .s64
  else if c = 8 then some .float
  else none

/-- The `op` field of an FT word, bits 5:4 (R71). -/
def opField (word : BitVec 6) : BitVec 2 := word.extractLsb' 4 2

/-- The `type` field of an FT word, bits 3:0 (R71). -/
def typeField (word : BitVec 6) : BitVec 4 := word.extractLsb' 0 4

/-- The `reinit` field of an FR word, bit 8 (R72). -/
def reinitField (word : BitVec 9) : BitVec 1 := word.extractLsb' 8 1

/-- The `byte` field of an FR word, bits 7:0 (R72). -/
def byteField (word : BitVec 9) : Byte := word.extractLsb' 0 8

/-- WIDTH.T for the type (R74). -/
def FieldType.widthInstr : FieldType → Instr
  | .u8 => .widthU8
  | .s8 => .widthS8
  | .u16 => .widthU16
  | .s16 => .widthS16
  | .u32 => .widthU32
  | .s32 => .widthS32
  | .u64 => .widthU64
  | .s64 => .widthS64
  | .float => .widthFloat

/-- READ.T for the type (R74). -/
def FieldType.readInstr (T : FieldType) (offset : Offset) : Instr :=
  match T with
  | .u8 => .readU8 offset
  | .s8 => .readS8 offset
  | .u16 => .readU16 offset
  | .s16 => .readS16 offset
  | .u32 => .readU32 offset
  | .s32 => .readS32 offset
  | .u64 => .readU64 offset
  | .s64 => .readS64 offset
  | .float => .readFloat offset

/-- WRITE.T for the type, where the value has exactly `8 * width(T)` bits (R74, R135); else `none`. -/
def FieldType.writeInstr (T : FieldType) (offset : Offset) (wdata : Value) : Option Instr :=
  match T, wdata with
  | .u8, .w8 v => some (.writeU8 offset v)
  | .s8, .w8 v => some (.writeS8 offset v)
  | .u16, .w16 v => some (.writeU16 offset v)
  | .s16, .w16 v => some (.writeS16 offset v)
  | .u32, .w32 v => some (.writeU32 offset v)
  | .s32, .w32 v => some (.writeS32 offset v)
  | .u64, .w64 v => some (.writeU64 offset v)
  | .s64, .w64 v => some (.writeS64 offset v)
  | .float, .w32 v => some (.writeFloat offset v)
  | _, _ => none

/-- Decoding an FT word with its operands. The checks are made in the order of R173: `IllegalOp`, then `IllegalType`. -/
def decodeFieldType (word : BitVec 6) (offset : Offset) (wdata : Value) : Decoded :=
  if opField word = 3 then .illegalOp
  else
    match FieldType.ofCode (typeField word) with
    | none => .illegalType
    | some T =>
      if opField word = 0 then .op T.widthInstr
      else if opField word = 1 then .op (T.readInstr offset)
      else
        match T.writeInstr offset wdata with
        | some i => .op i
        | none => .wdataWidth

/-- Decoding an FR word: PUSH of the byte, or REINIT, whose byte is ignored (R72). No FR word is reserved (R75). -/
def decodeFramer (word : BitVec 9) : Decoded :=
  if reinitField word = 1 then .op .reinit else .op (.push (byteField word))

/-- Decoding a command (R73: it depends on the word alone but for the operands it carries along). -/
def decode : Command → Decoded
  | .framer word => decodeFramer word
  | .fieldType word offset wdata => decodeFieldType word offset wdata

/-- The `wdata` of zeros that goes with an FT word: of the WRITE.T's width, and 8 bits where the word reads none. -/
def zeroWdata (word : BitVec 6) : Value :=
  if word = 0x22#6 ∨ word = 0x23#6 then .w16 0
  else if word = 0x24#6 ∨ word = 0x25#6 ∨ word = 0x28#6 then .w32 0
  else if word = 0x26#6 ∨ word = 0x27#6 then .w64 0
  else .w8 0

/-- The command whose bits are `w`, numbered as the opcode table numbers them: a row of at most one byte is an FT word (6 bits),
a longer one an FR word (9 bits). Operands are zeros. A number with a bit above the word's own is no word of the port. -/
def tableCommand (nbits w : Nat) : Option Command :=
  if nbits ≤ 8 then
    if w < 2 ^ 6 then
      some (.fieldType (BitVec.ofNat 6 w) 0 (zeroWdata (BitVec.ofNat 6 w)))
    else none
  else
    if w < 2 ^ 9 then some (.framer (BitVec.ofNat 9 w)) else none

/-- The instruction the decoder reads from the table's word; `none` where it names no operation. -/
def decodeTableWord (nbits w : Nat) : Option Instr :=
  match tableCommand nbits w with
  | none => none
  | some c =>
    match decode c with
    | .op i => some i
    | _ => none

/-- The encoder: the command of an operation, its word written from the table of R74. Operands the operation does not take are
zero, as are REINIT's ignored bits. -/
def encode : Instr → Command
  | .push b => .framer (b.setWidth 9)
  | .reinit => .framer 0b100000000#9
  | .widthU8 => .fieldType 0b000000#6 0 (.w8 0)
  | .widthS8 => .fieldType 0b000001#6 0 (.w8 0)
  | .widthU16 => .fieldType 0b000010#6 0 (.w8 0)
  | .widthS16 => .fieldType 0b000011#6 0 (.w8 0)
  | .widthU32 => .fieldType 0b000100#6 0 (.w8 0)
  | .widthS32 => .fieldType 0b000101#6 0 (.w8 0)
  | .widthU64 => .fieldType 0b000110#6 0 (.w8 0)
  | .widthS64 => .fieldType 0b000111#6 0 (.w8 0)
  | .widthFloat => .fieldType 0b001000#6 0 (.w8 0)
  | .readU8 o => .fieldType 0b010000#6 o (.w8 0)
  | .readS8 o => .fieldType 0b010001#6 o (.w8 0)
  | .readU16 o => .fieldType 0b010010#6 o (.w8 0)
  | .readS16 o => .fieldType 0b010011#6 o (.w8 0)
  | .readU32 o => .fieldType 0b010100#6 o (.w8 0)
  | .readS32 o => .fieldType 0b010101#6 o (.w8 0)
  | .readU64 o => .fieldType 0b010110#6 o (.w8 0)
  | .readS64 o => .fieldType 0b010111#6 o (.w8 0)
  | .readFloat o => .fieldType 0b011000#6 o (.w8 0)
  | .writeU8 o v => .fieldType 0b100000#6 o (.w8 v)
  | .writeS8 o v => .fieldType 0b100001#6 o (.w8 v)
  | .writeU16 o v => .fieldType 0b100010#6 o (.w16 v)
  | .writeS16 o v => .fieldType 0b100011#6 o (.w16 v)
  | .writeU32 o v => .fieldType 0b100100#6 o (.w32 v)
  | .writeS32 o v => .fieldType 0b100101#6 o (.w32 v)
  | .writeU64 o v => .fieldType 0b100110#6 o (.w64 v)
  | .writeS64 o v => .fieldType 0b100111#6 o (.w64 v)
  | .writeFloat o v => .fieldType 0b101000#6 o (.w32 v)

end Sys2Proof
end

