-- ==== Sys2Proof/Config.lean ====
section
/-! DEFINITION. What the implementation fixes: the constants of 00_scope.md R7 and R8. The spec gives every operation a
determined result, so there is no free value here. -/

namespace Sys2Proof

/-- `MARKER`, the start marker byte (R7, R61). -/
def Config.marker : Byte := 0xFF#8

/-- `HDR_LEN`, the header bytes: marker, id, length low, length high (R7). -/
def Config.hdrLen : Nat := 4

/-- `CS_LEN`, the checksum bytes (R7). -/
def Config.csLen : Nat := 1

/-- `LEN_MAX`, the largest `frameLength` that is not aborted (R7, R86 line 5). -/
def Config.lenMax : Nat := 1024

/-- `CS_MOD`, the checksum modulus (R7, R65). -/
def Config.csMod : Nat := 256

/-- `N_TYPES`, the number of field types (R7, R68). -/
def Config.nTypes : Nat := 9

/-- `WIN_CAP = LEN_MAX + HDR_LEN + CS_LEN` = 1029 bytes, the window's capacity (R8, R21; the spec's decision D3, taken where
the source says 1024, 90_conflicts.md C1). UNVERIFIED: the spec's own decision, unsafe for `frameLength` 1020 to 1024: log entry 2. -/
def Config.winCap : Nat := Config.lenMax + Config.hdrLen + Config.csLen

/-- What a byte of a client buffer that the cell list does not name reads as. The buffer is an operand whose every byte the
client supplies (R42), so this is how a zero byte is held, not a value for a byte nobody wrote: log entry 4. -/
def Config.unlistedByte : Byte := 0x00#8

end Sys2Proof
end

