-- ==== Sys2Proof/Machine/State.lean ====
section
/-! DEFINITION. The state: the framer's window (10_state.md R20, R21), the client buffer on the block's port (20_memory.md R42),
the two output lists (R40, R44), what the last operation returned (00_scope.md R15) and what the host has issued (R43, R204). -/

namespace Sys2Proof.Machine

/-- A client buffer: `size` is its length `N`, any natural (R42). Its bytes are held as a list of cells in one canonical form
(`Memory.wf`); an offset below `size` that no cell names holds `Config.unlistedByte`. -/
structure Memory where
  size : Nat
  cells : List Host.Cell
  deriving DecidableEq, Repr

/-- The canonical form: addresses strictly rising, each inside the buffer, no cell equal to what an unlisted address reads as. -/
abbrev Memory.wf (m : Memory) : Prop :=
  m.cells.Pairwise (fun x y => x.1 < y.1) ∧ ∀ c ∈ m.cells, c.1 < m.size ∧ c.2 ≠ Config.unlistedByte

/-- The five framer states (R22). A state names the rule under which the next pushed byte is examined. -/
inductive Phase where
  | pre | id | len | data | cs
  deriving DecidableEq, Repr

/-- A diagnostic event (R170). -/
inductive Diag where
  | lengthOversize | checksumMismatch
  deriving DecidableEq, Repr

/-- The status of a field-type operation (R165). A fault is such a status, returned, and nothing else (R166). -/
inductive Status where
  | ok | outOfBounds | illegalType | illegalOp
  deriving DecidableEq, Repr

/-- The result beside a status: the value read, the width (`wbytes`, 4 bits), or nothing (R15, R71). -/
inductive Result where
  | nothing
  | width (wbytes : BitVec 4)
  | rdata (v : Value)
  deriving DecidableEq, Repr

/-- What an operation returns (R15). -/
inductive Response where
  | framer (frames : List Bytes) (diags : List Diag)
  | fieldType (status : Status) (result : Result)
  deriving DecidableEq, Repr

/-- What the host can do to the block (R204), one after another and never during an operation (R191, R192). -/
inductive Request where
  /-- issue an operation; a field-type operation acts on the buffer that stands on the port -/
  | issue (cmd : Command)
  /-- present a client buffer: another one, or the same one with contents the client has changed (R42, R189) -/
  | present (buf : Memory)
  /-- reset the block (R184) -/
  | powerReset
  deriving DecidableEq, Repr

/-- The state of the machine. -/
structure State where
  /-- `W`, oldest byte first (R20, R21) -/
  window : Bytes
  /-- the client buffer on the port; it is the client's (R42) -/
  buffer : Memory
  /-- what the host has issued and the block has not yet performed, oldest first: the input stream of R43 among it -/
  pending : List Request
  /-- the frame output: every frame emitted, in order (R40, R44) -/
  frames : List Bytes
  /-- the diagnostic output: every event delivered, in order (R40, R170) -/
  diags : List Diag
  /-- what the last operation returned (R15); none when no operation has returned since reset -/
  response : Option Response
  deriving DecidableEq, Repr

/-- Where the machine stops with a fault. -/
inductive Fault where
  /-- Raised by PUSH on a window that already holds `Config.winCap` bytes: the append does not fit. No state between operations
  has such a window (R27, R92). Safe: it stops where the spec says nothing. -/
  | windowFull
  deriving DecidableEq, Repr

/-- Where the machine refuses. -/
inductive Refusal where
  /-- Raised by `exec`'s arm of an instruction that has no meaning yet, by its mnemonic. Safe. -/
  | notModelled (mnemonic : String)
  /-- Raised by `step` for a WRITE.T command whose `wdata` has not `8 * width(T)` bits: the port cannot carry such a value and
  the spec gives it no meaning (R135; 93_implementation_defined.md U4). DEDUCED: log entry 6. Safe. -/
  | wdataWidth
  deriving DecidableEq, Repr

/-- Right after reset: the window is empty (R37, R184), so the framer's state is PRE. The other fields are not the block's state:
nothing has been issued, emitted, delivered or returned, and no buffer is presented, held as the buffer of length 0 (log
entries 1, 4 and 5). -/
def State.reset : State :=
  { window := [], buffer := { size := 0, cells := [] }, pending := [], frames := [], diags := [], response := none }

end Sys2Proof.Machine
end

