-- ==== Sys2Proof/Machine/Operands.lean ====
section
/-! DEFINITION. The operand forms: the widths of the field types, values and the numbers they stand for, little-endian assembly,
and the views of the window (10_state.md R22 to R26). -/

namespace Sys2Proof

/-- `width(T)`, in bytes (00_scope.md R9). -/
def FieldType.width : FieldType → Nat
  | .u8 => 1
  | .s8 => 1
  | .u16 => 2
  | .s16 => 2
  | .u32 => 4
  | .s32 => 4
  | .u64 => 8
  | .s64 => 8
  | .float => 4

/-- `uint(v)`: the natural number a bit vector spells (R11). -/
def Value.uint : Value → Nat
  | .w8 v => v.toNat
  | .w16 v => v.toNat
  | .w32 v => v.toNat
  | .w64 v => v.toNat

/-- `sint_n(v)` for an `n`-bit vector: `uint(v)` below `2^(n-1)`, else `uint(v) - 2^n` (R11, R147). -/
def sintOf (n v : Nat) : Int :=
  if v < 2 ^ (n - 1) then (v : Int) else (v : Int) - 2 ^ n

/-- The natural `v` as an `8 * width(T)`-bit vector (R112). -/
def FieldType.toValue (T : FieldType) (v : Nat) : Value :=
  match T with
  | .u8 => .w8 (BitVec.ofNat 8 v)
  | .s8 => .w8 (BitVec.ofNat 8 v)
  | .u16 => .w16 (BitVec.ofNat 16 v)
  | .s16 => .w16 (BitVec.ofNat 16 v)
  | .u32 => .w32 (BitVec.ofNat 32 v)
  | .s32 => .w32 (BitVec.ofNat 32 v)
  | .u64 => .w64 (BitVec.ofNat 64 v)
  | .s64 => .w64 (BitVec.ofNat 64 v)
  | .float => .w32 (BitVec.ofNat 32 v)

/-- A number on the client's side of the value port (R69): an exact integer, or a 32-bit float given by its bits (R70).
DESIGN CHOICE: the split in two kinds is the model's, log entry 21. -/
inductive Number where
  | int (z : Int)
  | floatBits (bits : BitVec 32)
  deriving DecidableEq, Repr

/-- Whether the type is one of S8, S16, S32, S64 (R68). -/
def FieldType.signed : FieldType → Bool
  | .s8 => true
  | .s16 => true
  | .s32 => true
  | .s64 => true
  | _ => false

/-- The number the client takes from `rdata` (R69, R112): `uint` for U types, `sint` for S types, the bits for Float. -/
def FieldType.number (T : FieldType) (v : Value) : Number :=
  match T with
  | .float => .floatBits (BitVec.ofNat 32 v.uint)
  | _ => if T.signed then .int (sintOf (8 * T.width) v.uint) else .int v.uint

/-- The `wdata` of a natural for a U type, inside `0 <= value < 2^(8w)`; outside it none (R135, R146). -/
def unsignedWdata (T : FieldType) (z : Int) : Option Value :=
  if 0 ≤ z ∧ z < 2 ^ (8 * T.width) then some (T.toValue z.toNat) else none

/-- The `wdata` of an integer for an S type, `value mod 2^(8w)`, inside `-2^(8w-1) <= value < 2^(8w-1)`; outside it none (R135,
R146, R147). -/
def signedWdata (T : FieldType) (z : Int) : Option Value :=
  if -(2 : Int) ^ (8 * T.width - 1) ≤ z ∧ z < 2 ^ (8 * T.width - 1) then
    some (T.toValue (z % 2 ^ (8 * T.width)).toNat)
  else none

/-- The `wdata` that carries a number (R135): an integer for the integer types, bits for Float. `none` where an integer is
outside the type's range: a wrapper over host numbers refuses it and neither truncates nor saturates (R146). `none` also where the
number is of the other kind: the client converts, not the block (R151; DESIGN CHOICE, log entry 21). -/
def FieldType.wdataOf (T : FieldType) (n : Number) : Option Value :=
  match T, n with
  | .float, .floatBits bits => some (.w32 bits)
  | .float, .int _ => none
  | _, .floatBits _ => none
  | _, .int z => if T.signed then signedWdata T z else unsignedWdata T z

/-- Sign, biased exponent and fraction of a 32-bit float pattern: bits 31, 30:23 and 22:0 (R70). No operation reads them. -/
def floatFields (bits : BitVec 32) : BitVec 1 × BitVec 8 × BitVec 23 :=
  (bits.extractLsb' 31 1, bits.extractLsb' 23 8, bits.extractLsb' 0 23)

/-- `le` of a byte sequence: the sum of `s[i] * 256^i` (R13). -/
def leNat : Bytes → Nat
  | [] => 0
  | b :: rest => b.toNat + 256 * leNat rest

/-- `le_bytes(v, w)`: the `w` bytes whose element `i` is `(v / 256^i) mod 256` (R13). -/
def leBytes (v : Nat) : Nat → Bytes
  | 0 => []
  | w + 1 => BitVec.ofNat 8 v :: leBytes (v / 256) w

/-- `sum(s)` as a natural number (R12). -/
def sumBytes : Bytes → Nat
  | [] => 0
  | b :: rest => b.toNat + sumBytes rest

namespace Machine

/-- `W[k]` as a number; read by rules only for `k < |W|`. -/
def byteAt (W : Bytes) (k : Nat) : Nat := (W.getD k 0).toNat

/-- `L = W[2] + 256 * W[3]`, the frame length (R25, R63); read by rules only when `|W| ≥ 4`. -/
def frameLength (W : Bytes) : Nat := byteAt W 2 + 256 * byteAt W 3

/-- The view `state` of a window between operations (R22, the table of R27). -/
def phaseOf (W : Bytes) : Phase :=
  if W.length = 0 then .pre
  else if W.length = 1 then .id
  else if W.length < 4 then .len
  else if W.length < 4 + frameLength W then .data
  else .cs

/-- The view `len_phase` (R23): 0 before the low length byte, 1 before the high one, no value outside LEN. -/
def lenPhaseOf (W : Bytes) : Option (BitVec 1) :=
  if W.length = 2 then some 0 else if W.length = 3 then some 1 else none

/-- The view `frame_id` (R24), no value while `wlen < 2`. -/
def frameIdOf (W : Bytes) : Option Byte := W[1]?

/-- The view `len_lo` (R25), no value while `wlen < 3`. -/
def lenLoOf (W : Bytes) : Option Byte := W[2]?

/-- The view `frame_len` (R25), no value while `wlen < 4`. -/
def frameLenOf (W : Bytes) : Option (BitVec 16) :=
  if 4 ≤ W.length then some (BitVec.ofNat 16 (frameLength W)) else none

/-- The view `dcount` (R26), no value while `wlen < 4`. -/
def dcountOf (W : Bytes) : Option (BitVec 11) :=
  if 4 ≤ W.length then some (BitVec.ofNat 11 (W.length - 4)) else none

/-- `FRAME(id, payload)` (R78): the raw frame with that id and payload and the checksum byte that makes it valid. -/
def frameOf (id : Byte) (payload : Bytes) : Bytes :=
  Config.marker :: id :: BitVec.ofNat 8 (payload.length % 256) :: BitVec.ofNat 8 (payload.length / 256) ::
    (payload ++ [BitVec.ofNat 8 ((Config.csMod - sumBytes payload % Config.csMod) % Config.csMod)])

end Machine

end Sys2Proof
end

