-- ==== Sys2Proof/Machine/Flags.lean ====
section
/-! DEFINITION. The block keeps no flag or condition code (10_state.md R31). What stands in their place: the status, diagnostic
and state codes, the bounds test and the checksum test. -/

namespace Sys2Proof.Machine

/-- The 2-bit status codes (60_exceptions.md R165). -/
def Status.code : Status → BitVec 2
  | .ok => 0
  | .outOfBounds => 1
  | .illegalType => 2
  | .illegalOp => 3

/-- The 2-bit diagnostic codes; 0 and 3 are unused (R170). -/
def Diag.code : Diag → BitVec 2
  | .lengthOversize => 1
  | .checksumMismatch => 2

/-- The 3-bit state codes; 5 to 7 never occur (10_state.md R22). -/
def Phase.code : Phase → BitVec 3
  | .pre => 0
  | .id => 1
  | .len => 2
  | .data => 3
  | .cs => 4

/-- The bounds test of a client-buffer access of `w` bytes: `offset + w ≤ N`, a sum of naturals that never wraps (R51). -/
def inBounds (m : Memory) (offset : Offset) (w : Nat) : Bool :=
  decide (offset.toNat + w ≤ m.size)

/-- The checksum test on the bytes from wire offset 4 through the checksum byte: their sum is 0 modulo 256 (R65, R107). -/
def checksumOk (bs : Bytes) : Bool :=
  sumBytes bs % Config.csMod == 0

end Sys2Proof.Machine
end

