-- ==== Sys2Proof/Machine/Ops.lean ====
section
/-! DEFINITION. The named operations over the client buffer, the window and the fields of the state, and the shared forms of the
operations: returning a result, reporting a fault, the verdict on a window and the loop of PUSH. -/

namespace Sys2Proof.Machine

/-! ### The client buffer (20_memory.md R42, 00_scope.md R14) -/

/-- What the cell list holds at an address. -/
def cellAt (a : Nat) : List Host.Cell → Byte
  | [] => Config.unlistedByte
  | (k, v) :: rest => if k = a then v else cellAt a rest

/-- The cell list with the byte `b` at address `a`, in canonical form: writing what an unlisted address reads as removes the cell. -/
def putCell (a : Nat) (b : Byte) : List Host.Cell → List Host.Cell
  | [] => if b = Config.unlistedByte then [] else [(a, b)]
  | (k, v) :: rest =>
    if a < k then
      if b = Config.unlistedByte then (k, v) :: rest else (a, b) :: (k, v) :: rest
    else if a = k then
      if b = Config.unlistedByte then rest else (a, b) :: rest
    else (k, v) :: putCell a b rest

/-- `buf[a]`; no byte exists at or past the length `N`. -/
def readByte? (m : Memory) (a : Nat) : Option Byte :=
  if a < m.size then some (cellAt a m.cells) else none

/-- The buffer with `buf[a] = b`; at or past the length `N` there is no byte to write. -/
def writeByte (m : Memory) (a : Nat) (b : Byte) : Memory :=
  if a < m.size then { m with cells := putCell a b m.cells } else m

/-- `MemRead(buf, a, n)` = `buf[a .. a+n)` (R14); used only where `a + n ≤ N`. -/
def memRead (m : Memory) (a : Nat) : Nat → Bytes
  | 0 => []
  | n + 1 => cellAt a m.cells :: memRead m (a + 1) n

/-- `MemWrite(buf, a, n, bs)` with `n = |bs|` (R14); used only where `a + n ≤ N`. -/
def memWrite (m : Memory) (a : Nat) : Bytes → Memory
  | [] => m
  | b :: rest => memWrite (writeByte m a b) (a + 1) rest

/-- The client buffer that holds a byte sequence, such as an emitted frame (R134). -/
def memoryOf (bs : Bytes) : Memory :=
  memWrite { size := bs.length, cells := [] } 0 bs

/-! ### Updates of the state, one per field -/

/-- `W <- w`. -/
def State.setWindow (s : State) (w : Bytes) : State := { s with window := w }

/-- The client buffer on the port becomes `m`. -/
def State.setBuffer (s : State) (m : Memory) : State := { s with buffer := m }

/-- What the host has issued becomes `p`. -/
def State.setPending (s : State) (p : List Request) : State := { s with pending := p }

/-- Emitted frames are appended to the frame output, in order (R44). -/
def State.addFrames (s : State) (fs : List Bytes) : State := { s with frames := s.frames ++ fs }

/-- Diagnostic events are appended to the diagnostic output, in order (R44, R170). -/
def State.addDiags (s : State) (ds : List Diag) : State := { s with diags := s.diags ++ ds }

/-- The operation returns `r` (R15). -/
def State.respond (s : State) (r : Response) : State := { s with response := some r }

/-! ### Returning, and the one way a field-type operation fails -/

/-- A field-type operation returns OK with a result (R15). -/
def returnOk (r : Result) (s : State) : Host.Outcome State Fault Refusal :=
  .next (s.respond (.fieldType .ok r))

/-- `fault <Name>` (R166): the operation returns the status and no result, and nothing else changes. There is no trap, no vector
and no saved state, so this is all that taking an exception is on this block, and nothing returns from one (R174, R175). -/
def reportFault (st : Status) (s : State) : Host.Outcome State Fault Refusal :=
  .next (s.respond (.fieldType st .nothing))

/-- A framer operation returns its frames and its diagnostic events, and both are appended to the outputs (R15, R44). -/
def deliver (frames : List Bytes) (diags : List Diag) (s : State) : State :=
  ((s.addFrames frames).addDiags diags).respond (.framer frames diags)

/-! ### The three field-type operations (41_fieldtype_width_read.md R111, R112; 42_fieldtype_write.md R136) -/

/-- WIDTH.T: `(OK, width(T))`, 4 bits (R111). -/
def widthField (T : FieldType) (s : State) : Host.Outcome State Fault Refusal :=
  returnOk (.width (BitVec.ofNat 4 T.width)) s

/-- READ.T: the bounds check, then `le(buf, offset, width(T))` (R112). -/
def readField (T : FieldType) (offset : Offset) (s : State) : Host.Outcome State Fault Refusal :=
  if inBounds s.buffer offset T.width then
    returnOk (.rdata (T.toValue (leNat (memRead s.buffer offset.toNat T.width)))) s
  else reportFault .outOfBounds s

/-- WRITE.T: the bounds check before any byte is written, then exactly `width(T)` bytes, low byte first (R136). -/
def writeField (T : FieldType) (offset : Offset) (wdata : Value) (s : State) : Host.Outcome State Fault Refusal :=
  if inBounds s.buffer offset T.width then
    returnOk .nothing (s.setBuffer (memWrite s.buffer offset.toNat (leBytes wdata.uint T.width)))
  else reportFault .outOfBounds s

/-! ### The framer (40_streamframer.md) -/

/-- Why a candidate fails (60_exceptions.md R169). -/
inductive FailReason where
  | noMarker | lengthOversize | checksumMismatch
  deriving DecidableEq, Repr

/-- The outcome of examining a window (R86). -/
inductive Verdict where
  | wait (p : Phase)
  | fail (r : FailReason)
  | emit (f : Bytes)
  deriving DecidableEq, Repr

/-- `verdict(W)`, the nine lines of R86 in their order. Line 8's test also stands behind R97: lengths up to 1024 are admitted. -/
def verdict (W : Bytes) : Verdict :=
  if W.length = 0 then .wait .pre
  else if W.getD 0 0 ≠ Config.marker then .fail .noMarker
  else if W.length = 1 then .wait .id
  else if W.length = 2 ∨ W.length = 3 then .wait .len
  else if Config.lenMax < frameLength W then .fail .lengthOversize
  else if W.length < frameLength W + 4 then .wait .data
  else if W.length = frameLength W + 4 then .wait .cs
  else if checksumOk ((W.take (frameLength W + 5)).drop 4) then .emit (W.take (frameLength W + 5))
  else .fail .checksumMismatch

/-- The diagnostic event of a failure; `NoMarker` delivers none (R99, R169). -/
def FailReason.diags : FailReason → List Diag
  | .noMarker => []
  | .lengthOversize => [.lengthOversize]
  | .checksumMismatch => [.checksumMismatch]

/-- What the loop of PUSH leaves: the window, the frames emitted and the events delivered, in order. -/
structure Scan where
  window : Bytes
  frames : List Bytes
  diags : List Diag
  deriving DecidableEq, Repr

/-- The loop of R90 on the window: examine it; on `wait` stop; on any other verdict drop exactly the oldest byte (R88, R95) and
examine the rest. -/
def rescan : Bytes → Scan
  | [] => { window := [], frames := [], diags := [] }
  | b :: rest =>
    match verdict (b :: rest) with
    | .wait _ => { window := b :: rest, frames := [], diags := [] }
    | .emit f =>
      { window := (rescan rest).window, frames := f :: (rescan rest).frames, diags := (rescan rest).diags }
    | .fail r =>
      { window := (rescan rest).window, frames := (rescan rest).frames, diags := r.diags ++ (rescan rest).diags }

/-! ### The host's side of a step -/

/-- Power-on reset of the block (70_reset_and_hazards.md R184 to R186): the window empties; buffers, outputs and what the host
has issued are not the block's and stay; no operation has returned since. -/
def powerReset (s : State) : State :=
  { s.setWindow [] with response := none }

/-- The next thing the host has asked for, and the state without it; `none` when the host has issued nothing. -/
def fetch (s : State) : Option (Request × State) :=
  match s.pending with
  | [] => none
  | r :: rest => some (r, s.setPending rest)

/-- The state in which the host's next request is to issue the command `c`. -/
def placeCommand (s : State) (c : Command) : State :=
  s.setPending (.issue c :: s.pending)

end Sys2Proof.Machine
end

