-- ==== Sys2Proof/Machine/Framer.lean ====
section
/-! DEFINITION. The StreamFramer operations PUSH and REINIT (40_streamframer.md R90, R94). -/

namespace Sys2Proof.Machine

/-- PUSH (R90): append the byte, run the loop, return and deliver what it emitted. The append needs room in the window of
`WIN_CAP` bytes (R21); between operations there always is (R92). -/
def execPush (b : Byte) (s : State) : Host.Outcome State Fault Refusal :=
  if s.window.length < Config.winCap then
    .next (deliver (rescan (s.window ++ [b])).frames (rescan (s.window ++ [b])).diags
      (s.setWindow (rescan (s.window ++ [b])).window))
  else .fault .windowFull

/-- REINIT (R94): `W <- []`; nothing is emitted and nothing delivered. -/
def execReinit (s : State) : Host.Outcome State Fault Refusal :=
  .next (deliver [] [] (s.setWindow []))

end Sys2Proof.Machine
end

