-- ==== Sys2Proof/Machine/Read.lean ====
section
/-! DEFINITION. The FieldTypeCatalog operations READ.T (41_fieldtype_width_read.md R112, R122 to R130). A READ returns bits; the number they stand
for is `FieldType.number`. -/

namespace Sys2Proof.Machine

/-- READ.U8 (R122). -/
def execReadU8 (offset : Offset) (s : State) : Host.Outcome State Fault Refusal := readField .u8 offset s

/-- READ.S8 (R123). -/
def execReadS8 (offset : Offset) (s : State) : Host.Outcome State Fault Refusal := readField .s8 offset s

/-- READ.U16 (R124). -/
def execReadU16 (offset : Offset) (s : State) : Host.Outcome State Fault Refusal := readField .u16 offset s

/-- READ.S16 (R126). -/
def execReadS16 (offset : Offset) (s : State) : Host.Outcome State Fault Refusal := readField .s16 offset s

/-- READ.U32 (R127). -/
def execReadU32 (offset : Offset) (s : State) : Host.Outcome State Fault Refusal := readField .u32 offset s

/-- READ.S32 (R128). -/
def execReadS32 (offset : Offset) (s : State) : Host.Outcome State Fault Refusal := readField .s32 offset s

/-- READ.U64 (R129). -/
def execReadU64 (offset : Offset) (s : State) : Host.Outcome State Fault Refusal := readField .u64 offset s

/-- READ.S64 (R130). -/
def execReadS64 (offset : Offset) (s : State) : Host.Outcome State Fault Refusal := readField .s64 offset s

/-- READ.Float (R125). -/
def execReadFloat (offset : Offset) (s : State) : Host.Outcome State Fault Refusal := readField .float offset s


end Sys2Proof.Machine
end

