-- ==== Sys2Proof/Machine/Width.lean ====
section
/-! DEFINITION. The FieldTypeCatalog operations WIDTH.T (41_fieldtype_width_read.md R111, R113 to R121). -/

namespace Sys2Proof.Machine

/-- WIDTH.U8 (R113). -/
def execWidthU8 (s : State) : Host.Outcome State Fault Refusal := widthField .u8 s

/-- WIDTH.S8 (R114). -/
def execWidthS8 (s : State) : Host.Outcome State Fault Refusal := widthField .s8 s

/-- WIDTH.U16 (R115). -/
def execWidthU16 (s : State) : Host.Outcome State Fault Refusal := widthField .u16 s

/-- WIDTH.S16 (R116). -/
def execWidthS16 (s : State) : Host.Outcome State Fault Refusal := widthField .s16 s

/-- WIDTH.U32 (R117). -/
def execWidthU32 (s : State) : Host.Outcome State Fault Refusal := widthField .u32 s

/-- WIDTH.S32 (R118). -/
def execWidthS32 (s : State) : Host.Outcome State Fault Refusal := widthField .s32 s

/-- WIDTH.U64 (R119). -/
def execWidthU64 (s : State) : Host.Outcome State Fault Refusal := widthField .u64 s

/-- WIDTH.S64 (R120). -/
def execWidthS64 (s : State) : Host.Outcome State Fault Refusal := widthField .s64 s

/-- WIDTH.Float (R121). -/
def execWidthFloat (s : State) : Host.Outcome State Fault Refusal := widthField .float s


end Sys2Proof.Machine
end

