-- ==== Sys2Proof/Machine/Write.lean ====
section
/-! DEFINITION. The FieldTypeCatalog operations WRITE.T (42_fieldtype_write.md R136 to R145). -/

namespace Sys2Proof.Machine

/-- WRITE.U8 (R137). -/
def execWriteU8 (offset : Offset) (wdata : BitVec 8) (s : State) : Host.Outcome State Fault Refusal :=
  writeField .u8 offset (.w8 wdata) s

/-- WRITE.S8 (R138). -/
def execWriteS8 (offset : Offset) (wdata : BitVec 8) (s : State) : Host.Outcome State Fault Refusal :=
  writeField .s8 offset (.w8 wdata) s

/-- WRITE.U16 (R139). -/
def execWriteU16 (offset : Offset) (wdata : BitVec 16) (s : State) : Host.Outcome State Fault Refusal :=
  writeField .u16 offset (.w16 wdata) s

/-- WRITE.S16 (R140). -/
def execWriteS16 (offset : Offset) (wdata : BitVec 16) (s : State) : Host.Outcome State Fault Refusal :=
  writeField .s16 offset (.w16 wdata) s

/-- WRITE.U32 (R141). -/
def execWriteU32 (offset : Offset) (wdata : BitVec 32) (s : State) : Host.Outcome State Fault Refusal :=
  writeField .u32 offset (.w32 wdata) s

/-- WRITE.S32 (R142). -/
def execWriteS32 (offset : Offset) (wdata : BitVec 32) (s : State) : Host.Outcome State Fault Refusal :=
  writeField .s32 offset (.w32 wdata) s

/-- WRITE.U64 (R143). -/
def execWriteU64 (offset : Offset) (wdata : BitVec 64) (s : State) : Host.Outcome State Fault Refusal :=
  writeField .u64 offset (.w64 wdata) s

/-- WRITE.S64 (R145). -/
def execWriteS64 (offset : Offset) (wdata : BitVec 64) (s : State) : Host.Outcome State Fault Refusal :=
  writeField .s64 offset (.w64 wdata) s

/-- WRITE.Float (R144). -/
def execWriteFloat (offset : Offset) (wdata : BitVec 32) (s : State) : Host.Outcome State Fault Refusal :=
  writeField .float offset (.w32 wdata) s


end Sys2Proof.Machine
end

