-- ==== Sys2Proof/Machine/Dispatch.lean ====
section
/-! DEFINITION. The dispatch from an operation to its meaning (30_encoding.md R74), one arm per constructor. -/

namespace Sys2Proof.Machine

/-- One operation (20_memory.md R49: one atomic step). -/
def exec (i : Instr) (s : State) : Host.Outcome State Fault Refusal :=
  match i with
  | .push b => Sys2Proof.Machine.execPush b s
  | .reinit => Sys2Proof.Machine.execReinit s
  | .widthU8 => Sys2Proof.Machine.execWidthU8 s
  | .widthS8 => Sys2Proof.Machine.execWidthS8 s
  | .widthU16 => Sys2Proof.Machine.execWidthU16 s
  | .widthS16 => Sys2Proof.Machine.execWidthS16 s
  | .widthU32 => Sys2Proof.Machine.execWidthU32 s
  | .widthS32 => Sys2Proof.Machine.execWidthS32 s
  | .widthU64 => Sys2Proof.Machine.execWidthU64 s
  | .widthS64 => Sys2Proof.Machine.execWidthS64 s
  | .widthFloat => Sys2Proof.Machine.execWidthFloat s
  | .readU8 offset => Sys2Proof.Machine.execReadU8 offset s
  | .readS8 offset => Sys2Proof.Machine.execReadS8 offset s
  | .readU16 offset => Sys2Proof.Machine.execReadU16 offset s
  | .readS16 offset => Sys2Proof.Machine.execReadS16 offset s
  | .readU32 offset => Sys2Proof.Machine.execReadU32 offset s
  | .readS32 offset => Sys2Proof.Machine.execReadS32 offset s
  | .readU64 offset => Sys2Proof.Machine.execReadU64 offset s
  | .readS64 offset => Sys2Proof.Machine.execReadS64 offset s
  | .readFloat offset => Sys2Proof.Machine.execReadFloat offset s
  | .writeU8 offset wdata => Sys2Proof.Machine.execWriteU8 offset wdata s
  | .writeS8 offset wdata => Sys2Proof.Machine.execWriteS8 offset wdata s
  | .writeU16 offset wdata => Sys2Proof.Machine.execWriteU16 offset wdata s
  | .writeS16 offset wdata => Sys2Proof.Machine.execWriteS16 offset wdata s
  | .writeU32 offset wdata => Sys2Proof.Machine.execWriteU32 offset wdata s
  | .writeS32 offset wdata => Sys2Proof.Machine.execWriteS32 offset wdata s
  | .writeU64 offset wdata => Sys2Proof.Machine.execWriteU64 offset wdata s
  | .writeS64 offset wdata => Sys2Proof.Machine.execWriteS64 offset wdata s
  | .writeFloat offset wdata => Sys2Proof.Machine.execWriteFloat offset wdata s

end Sys2Proof.Machine
end

