-- ==== Sys2Proof/Machine/Step.lean ====
section
/-! DEFINITION. One step: the next thing the host has asked for, performed. -/

namespace Sys2Proof.Machine

/-- One step. With nothing issued the block idles and keeps everything (60_exceptions.md R182). A command is decoded; an operation
runs; a reserved word faults with its status (30_encoding.md R75). A presented buffer goes on the port; a reset empties the
window. -/
def step (s : State) : Host.Outcome State Fault Refusal :=
  match fetch s with
  | none => .next s
  | some (.powerReset, s') => .next (powerReset s')
  | some (.present m, s') => .next (s'.setBuffer m)
  | some (.issue c, s') =>
    match decode c with
    | .op i => exec i s'
    | .illegalOp => reportFault .illegalOp s'
    | .illegalType => reportFault .illegalType s'
    | .wdataWidth => .refused .wdataWidth

/-- `s` with the table's word issued as the very next request, so that `step` runs it. A number that is no word of its port is
not issued. How a run begins from reset: log entry 1. -/
def State.withFetchWord (s : State) (nbits w : Nat) : State :=
  match tableCommand nbits w with
  | some c => placeCommand s c
  | none => s

end Sys2Proof.Machine
end

