-- ==== Sys2Proof/Machine/Replay.lean ====
section
/-! DEFINITION. The byte-at-a-time form of the framer (40_streamframer.md R89): a buffer, a cursor and the state register, taking
buffered bytes one at a time. `execPush` is the normative form (R90); that the two agree is stated, not assumed. -/

namespace Sys2Proof.Machine

/-- The registers of R89 and what the PUSH in progress has emitted and delivered. -/
structure Replay where
  /-- `B` -/
  buf : Bytes
  /-- `c`: `B[0..c)` is examined so far -/
  cursor : Nat
  /-- `state` -/
  phase : Phase
  /-- `len_phase`: whether the low length byte is captured -/
  lenHigh : Bool
  /-- `L` -/
  length : Nat
  frames : List Bytes
  diags : List Diag
  deriving DecidableEq, Repr

/-- `reset: B <- tail(B); c <- 0; state <- PRE` (R89). -/
def replayReset (r : Replay) : Replay :=
  { r with buf := r.buf.tail, cursor := 0, phase := .pre }

/-- The case split of R89 on a byte `x` that has just been taken: the cursor already stands after it. -/
def replayByte (x : Byte) (r : Replay) : Replay :=
  match r.phase with
  | .pre => if x = Config.marker then { r with phase := .id } else replayReset r
  | .id => { r with phase := .len, lenHigh := false }
  | .len =>
    if r.lenHigh then
      if Config.lenMax < byteAt r.buf 2 + 256 * x.toNat then
        replayReset { r with length := byteAt r.buf 2 + 256 * x.toNat, diags := r.diags ++ [.lengthOversize] }
      else if byteAt r.buf 2 + 256 * x.toNat = 0 then
        { r with length := byteAt r.buf 2 + 256 * x.toNat, phase := .cs }
      else { r with length := byteAt r.buf 2 + 256 * x.toNat, phase := .data }
    else { r with lenHigh := true }
  | .data => if r.cursor - 4 = r.length then { r with phase := .cs } else r
  | .cs =>
    if checksumOk ((r.buf.take r.cursor).drop 4) then
      replayReset { r with frames := r.frames ++ [r.buf.take r.cursor] }
    else replayReset { r with diags := r.diags ++ [.checksumMismatch] }

/-- One pass of the `while c < |B|` loop of R89; nothing to do once every byte is examined. -/
def replayStep (r : Replay) : Replay :=
  if r.cursor < r.buf.length then
    replayByte (r.buf.getD r.cursor 0) { r with cursor := r.cursor + 1 }
  else r

/-- `PUSH(b): B <- B ++ [b]` (R89), with nothing yet emitted or delivered; the loop then runs until `c = |B|`. -/
def replayPush (b : Byte) (r : Replay) : Replay :=
  { r with buf := r.buf ++ [b], frames := [], diags := [] }

/-- The registers between operations for a window: every byte examined, the state that of its view (R27). A capture is that of
its view where the view is valid: `len_phase` in LEN (R23), `L` from `wlen = 4` on (R25). Where it is not valid the spec leaves the
register unspecified (R38, U8: any value), so it holds `freeHigh` or `freeLength`, which nothing constrains: log entry 22. -/
def replayOf (freeHigh : Bool) (freeLength : Nat) (W : Bytes) : Replay :=
  { buf := W, cursor := W.length, phase := phaseOf W,
    lenHigh := match lenPhaseOf W with
      | some v => v == 1
      | none => freeHigh,
    length := if 4 ≤ W.length then frameLength W else freeLength,
    frames := [], diags := [] }

end Sys2Proof.Machine
end

