-- ==== Sys2Proof/Safety.lean ====
section
/-! DEFINITION. The terms claims use: valid raw frames (30_encoding.md R66), the quiescent windows (10_state.md R27), the loop of
PUSH as a relation (40_streamframer.md R90), the laws' view of a stream (R100 to R102) and the invariant every step keeps. -/

namespace Sys2Proof.Machine

/-- `ValidFrame(f)` (R66). -/
abbrev ValidFrame (f : Bytes) : Prop :=
  5 ≤ f.length ∧ f.getD 0 0 = 0xFF#8 ∧ frameLength f ≤ 1024 ∧ f.length = frameLength f + 5 ∧
    sumBytes ((f.drop 4).take (frameLength f + 1)) % 256 = 0

/-- The row of R27's table that a window between operations is in, by the state it shows (the LEN rows are told apart by
`len_phase`). -/
def QuiescentIn (W : Bytes) : Phase → Prop
  | .pre => W.length = 0
  | .id => W.length = 1 ∧ W.getD 0 0 = 0xFF#8
  | .len => (W.length = 2 ∨ W.length = 3) ∧ W.getD 0 0 = 0xFF#8
  | .data => 4 ≤ W.length ∧ W.length < 4 + frameLength W ∧ W.getD 0 0 = 0xFF#8 ∧ frameLength W ≤ 1024
  | .cs => W.length = 4 + frameLength W ∧ W.getD 0 0 = 0xFF#8 ∧ frameLength W ≤ 1024

/-- The quiescent invariant (R27): some row of the table holds. -/
def Quiescent (W : Bytes) : Prop := ∃ p, QuiescentIn W p

/-- The loop of R90 as a relation: from the window `W` it emits `fs`, delivers `ds` and leaves `W'`. -/
inductive PushLoop : Bytes → List Bytes → List Diag → Bytes → Prop where
  | wait {W : Bytes} {p : Phase} : verdict W = .wait p → PushLoop W [] [] W
  | emit {W W' f : Bytes} {fs : List Bytes} {ds : List Diag} :
      verdict W = .emit f → PushLoop W.tail fs ds W' → PushLoop W (f :: fs) ds W'
  | noMarker {W W' : Bytes} {fs : List Bytes} {ds : List Diag} :
      verdict W = .fail .noMarker → PushLoop W.tail fs ds W' → PushLoop W fs ds W'
  | lengthOversize {W W' : Bytes} {fs : List Bytes} {ds : List Diag} :
      verdict W = .fail .lengthOversize → PushLoop W.tail fs ds W' → PushLoop W fs (.lengthOversize :: ds) W'
  | checksumMismatch {W W' : Bytes} {fs : List Bytes} {ds : List Diag} :
      verdict W = .fail .checksumMismatch → PushLoop W.tail fs ds W' → PushLoop W fs (.checksumMismatch :: ds) W'

/-- The decisive length of a window with a verdict other than wait (R87): 1, 4 or `L + 5`. -/
def decisiveLength (W : Bytes) : Verdict → Nat
  | .wait _ => W.length
  | .fail .noMarker => 1
  | .fail .lengthOversize => 4
  | .fail .checksumMismatch => frameLength W + 5
  | .emit _ => frameLength W + 5

/-- `L_p = s[p+2] + 256 * s[p+3]` of a stream position (the laws of 40_streamframer.md, section 6). -/
def lengthAt (s : Bytes) (p : Nat) : Nat := byteAt s (p + 2) + 256 * byteAt s (p + 3)

/-- The frame that a stream holds at position `p`, when the four conditions of R101 hold there. -/
def frameAt (s : Bytes) (p : Nat) : Option Bytes :=
  if s.getD p 0 = 0xFF#8 ∧ lengthAt s p ≤ 1024 ∧ p + lengthAt s p + 5 ≤ s.length ∧
      sumBytes ((s.drop (p + 4)).take (lengthAt s p + 1)) % 256 = 0 then
    some ((s.drop p).take (lengthAt s p + 5))
  else none

/-- The deciding index `dec(p)` of a stream position (R102). -/
def decidingIndex (s : Bytes) (p : Nat) : Nat :=
  if s.getD p 0 ≠ 0xFF#8 then p
  else if 1024 < lengthAt s p then p + 3
  else p + lengthAt s p + 4

/-- `p*` of R102: the least position that `s.length` bytes do not decide. -/
def IsOrigin (s : Bytes) (p : Nat) : Prop :=
  s.length ≤ decidingIndex s p ∧ ∀ q, q < p → decidingIndex s q < s.length

/-- The requests by which the host pushes a stream of bytes, in order (R43, R72: FR word `0 bbbbbbbb`, the byte extended with a zero bit). -/
def pushes (bs : Bytes) : List Request := bs.map (fun b => .issue (.framer (b.setWidth 9)))

/-- The frames a response returns; a field-type operation returns none. -/
def Response.frames : Response → List Bytes
  | .framer fs _ => fs
  | .fieldType _ _ => []

/-- The status a response returns; a framer operation returns none (R15, R164). -/
def Response.status : Response → Option Status
  | .framer _ _ => none
  | .fieldType st _ => some st

/-- The invariant every step keeps: the window is quiescent (R27), the client buffer and every buffer the host is about to present
are in canonical form, and every frame emitted or returned is a valid raw frame (R100). -/
structure Inv (s : State) : Prop where
  window : Quiescent s.window
  buffer : s.buffer.wf
  presented : ∀ m, Request.present m ∈ s.pending → m.wf
  frames : ∀ f ∈ s.frames, ValidFrame f
  returned : ∀ r, s.response = some r → ∀ f ∈ r.frames, ValidFrame f

end Sys2Proof.Machine
end

