-- ==== Sys2Proof/Certificates/Slice0/Obligations.lean ====
section
/-! DEFINITION. The statements for the provers, each from numbered rules of spec/. `≤ 1024`, `0xFF#8` and the other literals are
written out from the spec, not taken from Config. A docstring that begins "Inference" states what the spec itself marks as derived. -/

open Sys2Proof Sys2Proof.Machine

/-! ### Reset and the host's moves -/

/-- R37: after power-on reset, and after REINIT in any state, `wlen = 0`, `W = []` and `state = PRE`. -/
def Obligations.ResetAndReinitLeaveEmptyWindow : Prop :=
  (State.reset.window = [] ∧ State.reset.window.length = 0 ∧ phaseOf State.reset.window = .pre) ∧
  (∀ s, (powerReset s).window = [] ∧ phaseOf (powerReset s).window = .pre) ∧
  ∀ s, ∃ t, exec .reinit s = .next t ∧ t.window = [] ∧ t.window.length = 0 ∧ phaseOf t.window = .pre

/-- The model's choice of what the host has done before the first step (log entries 1, 4, 5): nothing issued, no buffer (length 0),
nothing emitted, delivered or returned. -/
def Obligations.ResetFieldsTheModelChose : Prop :=
  State.reset.pending = [] ∧ State.reset.buffer.size = 0 ∧ (∀ a, readByte? State.reset.buffer a = none) ∧
  State.reset.frames = [] ∧ State.reset.diags = [] ∧ State.reset.response = none

/-- Inference. R184 to R186: a reset between operations empties the window, emits and reports nothing, and leaves the client buffer. -/
def Obligations.PowerResetEmptiesOnlyTheWindow : Prop :=
  ∀ (s : State) (rest : List Request), s.pending = .powerReset :: rest →
    ∃ t, step s = .next t ∧ t.window = [] ∧ t.frames = s.frames ∧ t.diags = s.diags ∧ t.buffer = s.buffer ∧
      t.pending = rest

/-- R182 and the model's reading of the host's side (log entry 1): with nothing issued a step keeps everything; a presented buffer
goes on the port and nothing else changes. That a WRITE.T with a value of another width than its type's is refused is the model's
choice (log entry 6). -/
def Obligations.HostMovesOtherThanOperations : Prop :=
  (∀ s : State, s.pending = [] → step s = .next s) ∧
  (∀ (s : State) (m : Memory) (rest : List Request), s.pending = .present m :: rest →
    step s = .next { s with pending := rest, buffer := m }) ∧
  ∀ (s : State) (c : Command) (rest : List Request), s.pending = .issue c :: rest → c.wellFormed = false →
    ((∃ word o v, c = .fieldType word o v ∧ word.toNat / 16 = 2) ∧ step s = .refused .wdataWidth)

/-- When the command at the head of what the host has issued decodes to an operation, the step runs that operation, in the state
without the command. -/
def Obligations.StepRunsTheDecodedOperation : Prop :=
  ∀ (s : State) (c : Command) (rest : List Request) (i : Instr), s.pending = .issue c :: rest → decode c = .op i →
    step s = exec i { s with pending := rest }

/-! ### Encodings -/

/-- R74: words written out from the table decode to the operations they stand for. -/
def Obligations.SampleWordsDecode : Prop :=
  decode (.framer 0b011010011#9) = .op (.push 0xD3) ∧ decode (.framer 0b100000000#9) = .op .reinit ∧
  decode (.framer 0b111111111#9) = .op .reinit ∧ decode (.fieldType 0b000011#6 0 (.w8 0)) = .op .widthS16 ∧
  decode (.fieldType 0b010110#6 9 (.w8 0)) = .op (.readU64 9) ∧
  decode (.fieldType 0b101000#6 4 (.w32 0x3FC00000)) = .op (.writeFloat 4 0x3FC00000)

/-- R74: decoding gives back every encoded operation with every operand; and a word that decodes to an operation is that
operation's own word, but for REINIT's ignored bits. -/
def Obligations.DecodeAndEncodeAgree : Prop :=
  (∀ i, decode (encode i) = .op i) ∧
  (∀ word i, decode (.framer word) = .op i → i = .reinit ∨ encode i = .framer word) ∧
  ∀ word o v i, decode (.fieldType word o v) = .op i → ∃ o' v', encode i = .fieldType word o' v'

/-- R73: every FR word is one of PUSH and REINIT, and every well-formed FT command is an operation or a reserved word. That decoding
refuses exactly the ill-formed commands, a WRITE.T word beside a value of another width, is the model's choice (log entry 6): R73
makes decoding depend on the word alone. -/
def Obligations.DecodingIsTotal : Prop :=
  (∀ word, (∃ b, decode (.framer word) = .op (.push b)) ∨ decode (.framer word) = .op .reinit) ∧
  (∀ c, decode c = .wdataWidth ↔ c.wellFormed = false) ∧
  ∀ c, c.wellFormed = true → (∃ i, decode c = .op i) ∨ decode c = .illegalOp ∨ decode c = .illegalType

/-- R75: an FT word with `op = 3` faults `IllegalOp`; one with `op` 0 to 2 and `type` 9 to 15 faults `IllegalType`; the only change
is the status returned. No FR word is reserved. -/
def Obligations.ReservedWordsFault : Prop :=
  (∀ word : BitVec 9, ∃ i, decode (.framer word) = .op i) ∧
  ∀ (s : State) (rest : List Request) (word : BitVec 6) (o : Offset) (v : Value),
    s.pending = .issue (.fieldType word o v) :: rest →
    (word.toNat / 16 = 3 →
      step s = .next { s with pending := rest, response := some (.fieldType .illegalOp .nothing) }) ∧
    (word.toNat / 16 < 3 → 9 ≤ word.toNat % 16 →
      step s = .next { s with pending := rest, response := some (.fieldType .illegalType .nothing) })

/-- R165, R170, R22, R68: the numbers of the status, diagnostic, state and type codes. -/
def Obligations.CodesAreTheSpecs : Prop :=
  (Status.ok.code = 0 ∧ Status.outOfBounds.code = 1 ∧ Status.illegalType.code = 2 ∧ Status.illegalOp.code = 3) ∧
  (Diag.lengthOversize.code = 1 ∧ Diag.checksumMismatch.code = 2) ∧
  (Phase.pre.code = 0 ∧ Phase.id.code = 1 ∧ Phase.len.code = 2 ∧ Phase.data.code = 3 ∧ Phase.cs.code = 4) ∧
  [FieldType.u8, .s8, .u16, .s16, .u32, .s32, .u64, .s64, .float].map FieldType.code = [0, 1, 2, 3, 4, 5, 6, 7, 8] ∧
  (∀ T c, FieldType.ofCode c = some T ↔ T.code = c) ∧ ∀ c : BitVec 4, 9 ≤ c.toNat → FieldType.ofCode c = none

/-! ### The framer -/

/-- R94: REINIT, under each of its 256 words, empties the window and returns `([], [])`; nothing else changes. -/
def Obligations.ReinitClearsTheWindow : Prop :=
  (∀ word : BitVec 9, word.toNat / 256 = 1 → decode (.framer word) = .op .reinit) ∧
  ∀ s : State, exec .reinit s = .next { s with window := [], response := some (.framer [] []) }

/-- R90: PUSH appends the byte and runs the loop; it returns, and appends to the outputs, what the loop emitted, and leaves a
quiescent window; nothing else changes. -/
def Obligations.PushRunsTheLoop : Prop :=
  (∀ b : Byte, decode (.framer (b.setWidth 9)) = .op (.push b)) ∧
  ∀ (b : Byte) (s : State), s.window.length < 1029 →
    ∃ fs ds W', PushLoop (s.window ++ [b]) fs ds W' ∧ Quiescent W' ∧
      exec (.push b) s = .next { s with
        window := W', frames := s.frames ++ fs, diags := s.diags ++ ds, response := some (.framer fs ds) }

/-- Inference. R92: a quiescent window holds at most 1028 bytes, so the append fits, PUSH never faults, and the window stays in bounds. -/
def Obligations.WindowNeverOverflows : Prop :=
  ∀ (b : Byte) (s : State), Quiescent s.window →
    s.window.length ≤ 1028 ∧ (s.window ++ [b]).length ≤ 1029 ∧
      ∃ t, exec (.push b) s = .next t ∧ t.window.length ≤ s.window.length + 1 ∧ t.window.length ≤ 1028

/-- The model's own stop (log entry 3): PUSH faults on a window that already holds the 1029 bytes of R21. -/
def Obligations.PushFaultsOnlyOnFullWindow : Prop :=
  ∀ (b : Byte) (s : State), exec (.push b) s = .fault .windowFull ↔ 1029 ≤ s.window.length

/-- Inference. R91, R93: a PUSH drops some `k ≤ |W| + 1` bytes from the front, and emits and reports at most once per drop. -/
def Obligations.PushDropsAreBounded : Prop :=
  ∀ (b : Byte) (s : State), s.window.length < 1029 →
    ∃ t fs ds k, exec (.push b) s = .next t ∧ t.response = some (.framer fs ds) ∧ k ≤ s.window.length + 1 ∧
      t.window = (s.window ++ [b]).drop k ∧ fs.length + ds.length ≤ k

/-- Inference. R27: the rows of the quiescent table are exactly the wait verdicts, so exactly one row holds, and the view `state` names it;
then a non-empty window begins with the marker and has at most 1028 bytes. -/
def Obligations.QuiescentRowsAreWaitVerdicts : Prop :=
  (∀ W p, QuiescentIn W p ↔ verdict W = .wait p) ∧ (∀ W p, QuiescentIn W p → phaseOf W = p) ∧
  ∀ W, Quiescent W → (W = [] ∨ W.head? = some 0xFF#8) ∧ W.length ≤ 1028

/-- R23 to R26: when each view is valid, and its value then. -/
def Obligations.ViewsOfTheWindow : Prop :=
  ∀ W, Quiescent W →
    ((lenPhaseOf W).isSome = true ↔ phaseOf W = .len) ∧ (W.length = 2 → lenPhaseOf W = some 0) ∧
    (W.length = 3 → lenPhaseOf W = some 1) ∧
    ((frameIdOf W).isSome = true ↔ 2 ≤ W.length) ∧ (2 ≤ W.length → frameIdOf W = some (W.getD 1 0)) ∧
    ((lenLoOf W).isSome = true ↔ 3 ≤ W.length) ∧ (3 ≤ W.length → lenLoOf W = some (W.getD 2 0)) ∧
    ((frameLenOf W).isSome = true ↔ 4 ≤ W.length) ∧
    (∀ L, frameLenOf W = some L → L.toNat = (W.getD 2 0).toNat + 256 * (W.getD 3 0).toNat ∧ L.toNat ≤ 1024) ∧
    ((dcountOf W).isSome = true ↔ 4 ≤ W.length) ∧ ∀ n, dcountOf W = some n → n.toNat + 4 = W.length

/-- Inference. R86 line 8 against R66: a window's verdict is Emit of `f` exactly when `f` is a valid raw frame that begins the window. -/
def Obligations.EmitMeansValidFrameAtOrigin : Prop :=
  ∀ W f, verdict W = .emit f ↔ f <+: W ∧ ValidFrame f

/-- R169: the causes of the three local failures; a PUSH that reaches one, or an emission, completes, drops the one byte at the
origin and goes on; a failure delivers its event and returns no status. -/
def Obligations.LocalFailures : Prop :=
  (∀ W, (verdict W = .fail .noMarker ↔ ∃ b rest, W = b :: rest ∧ b ≠ 0xFF#8) ∧
    (verdict W = .fail .lengthOversize ↔
      ∃ id lo hi rest, W = 0xFF#8 :: id :: lo :: hi :: rest ∧ 1024 < lo.toNat + 256 * hi.toNat) ∧
    (verdict W = .fail .checksumMismatch ↔
      ∃ id lo hi rest, W = 0xFF#8 :: id :: lo :: hi :: rest ∧ lo.toNat + 256 * hi.toNat ≤ 1024 ∧
        lo.toNat + 256 * hi.toNat + 1 ≤ rest.length ∧
        sumBytes (rest.take (lo.toNat + 256 * hi.toNat + 1)) % 256 ≠ 0)) ∧
  ∀ (s : State) (b : Byte), s.window.length < 1029 →
    let drops := fun (frames : List Bytes) (diags : List Diag) =>
      ∃ t fs ds, exec (.push b) s = .next t ∧ PushLoop (s.window ++ [b]).tail fs ds t.window ∧
        t.response = some (.framer (frames ++ fs) (diags ++ ds))
    (verdict (s.window ++ [b]) = .fail .noMarker → drops [] []) ∧
    (verdict (s.window ++ [b]) = .fail .lengthOversize → drops [] [.lengthOversize]) ∧
    (verdict (s.window ++ [b]) = .fail .checksumMismatch → drops [] [.checksumMismatch]) ∧
    ∀ f, verdict (s.window ++ [b]) = .emit f → drops [f] []

/-- Inference. R87: a verdict other than wait is fixed by its decisive prefix and survives every append; a wait can change. -/
def Obligations.DecisivePrefix : Prop :=
  (∀ W ext v, verdict W = v → (∀ p, v ≠ .wait p) →
    verdict (W ++ ext) = v ∧ decisiveLength W v ≤ W.length ∧ verdict (W.take (decisiveLength W v)) = v) ∧
  ∃ W b p, verdict W = .wait p ∧ verdict (W ++ [b]) ≠ .wait p

/-- R98: the transition table of `state` under PUSH, row by row. In the rows that drop, the loop goes on over the shorter window.
There are no other transitions: only a framer word or a reset changes the window. -/
def Obligations.TransitionTable : Prop :=
  (∀ s t : State, step s = .next t → t.window ≠ s.window →
    ∃ rest, s.pending = .powerReset :: rest ∨ ∃ word, s.pending = .issue (.framer word) :: rest) ∧
  ∀ (s : State) (b : Byte),
    let W := s.window
    let quiet := fun (W' : Bytes) (p : Phase) =>
      ∃ t, exec (.push b) s = .next t ∧ t.window = W' ∧ phaseOf W' = p ∧ t.response = some (.framer [] [])
    (W = [] → b = 0xFF#8 → quiet [b] .id) ∧
    (W = [] → b ≠ 0xFF#8 → quiet [] .pre) ∧
    (QuiescentIn W .id → quiet (W ++ [b]) .len ∧ lenPhaseOf (W ++ [b]) = some 0 ∧ frameIdOf (W ++ [b]) = some b) ∧
    (QuiescentIn W .len → lenPhaseOf W = some 0 →
      quiet (W ++ [b]) .len ∧ lenPhaseOf (W ++ [b]) = some 1 ∧ lenLoOf (W ++ [b]) = some b) ∧
    (∀ lo, QuiescentIn W .len → lenPhaseOf W = some 1 → lenLoOf W = some lo →
      (1024 < lo.toNat + 256 * b.toNat → ∃ t fs ds, exec (.push b) s = .next t ∧
        t.response = some (.framer fs (.lengthOversize :: ds)) ∧ PushLoop (W ++ [b]).tail fs ds t.window) ∧
      (lo.toNat + 256 * b.toNat = 0 → quiet (W ++ [b]) .cs ∧ frameLenOf (W ++ [b]) = some 0) ∧
      (1 ≤ lo.toNat + 256 * b.toNat → lo.toNat + 256 * b.toNat ≤ 1024 →
        quiet (W ++ [b]) .data ∧
          (frameLenOf (W ++ [b])).map BitVec.toNat = some (lo.toNat + 256 * b.toNat))) ∧
    (QuiescentIn W .data → W.length + 1 < 4 + frameLength W → quiet (W ++ [b]) .data) ∧
    (QuiescentIn W .data → W.length + 1 = 4 + frameLength W → quiet (W ++ [b]) .cs) ∧
    (QuiescentIn W .cs → (sumBytes (W.drop 4) + b.toNat) % 256 = 0 → ∃ t fs ds, exec (.push b) s = .next t ∧
      t.response = some (.framer ((W ++ [b]) :: fs) ds) ∧ PushLoop (W ++ [b]).tail fs ds t.window) ∧
    (QuiescentIn W .cs → (sumBytes (W.drop 4) + b.toNat) % 256 ≠ 0 → ∃ t fs ds, exec (.push b) s = .next t ∧
      t.response = some (.framer fs (.checksumMismatch :: ds)) ∧ PushLoop (W ++ [b]).tail fs ds t.window)

/-- R96: with `L = 0` the byte after the header is the checksum byte: 0x00 emits the 5-byte frame, any other byte fails. -/
def Obligations.ZeroLengthFrame : Prop :=
  ∀ (s : State) (id : Byte), s.window = [0xFF, id, 0x00, 0x00] →
    verdict s.window = .wait .cs ∧
    (∃ t, exec (.push 0x00) s = .next t ∧ t.response = some (.framer [[0xFF, id, 0x00, 0x00, 0x00]] [])) ∧
    ∀ c : Byte, c ≠ 0x00 → ∃ t ds, exec (.push c) s = .next t ∧
      t.response = some (.framer [] (.checksumMismatch :: ds))

/-- Inference. R100: every frame a PUSH returns is a valid raw frame and a contiguous piece of the bytes held and pushed. -/
def Obligations.EmittedFramesAreSound : Prop :=
  ∀ (b : Byte) (s : State), s.window.length < 1029 →
    ∃ t fs ds, exec (.push b) s = .next t ∧ t.response = some (.framer fs ds) ∧
      ∀ f ∈ fs, ValidFrame f ∧ f <:+: s.window ++ [b]

/-- Inference. R89: the byte-at-a-time machine, started from the registers of a quiescent window, reaches `c = |B|` having emitted the same
frames in the same order and delivered the same events as PUSH, with `B` the window PUSH leaves and the registers its views where
these are valid. It holds for every value of the captures that are not valid at the start (log entry 22). -/
def Obligations.ByteAtATimeFormAgrees : Prop :=
  ∀ (b : Byte) (s : State) (freeHigh : Bool) (freeLength : Nat), Quiescent s.window →
    ∃ t fs ds k, exec (.push b) s = .next t ∧ t.response = some (.framer fs ds) ∧
      let r := replayStep^[k] (replayPush b (replayOf freeHigh freeLength s.window))
      r.cursor = r.buf.length ∧ r.buf = t.window ∧ r.frames = fs ∧ r.diags = ds ∧ r.phase = phaseOf t.window ∧
        (r.phase = .len → lenPhaseOf t.window = some (if r.lenHigh then 1 else 0)) ∧
        (r.phase = .data ∨ r.phase = .cs → r.length = frameLength t.window)

/-- Inference. R101 with R102: from an empty window, after the bytes of a stream are pushed, the frames emitted are those of the stream
positions before the origin `p*` that meet the four conditions of R101, in increasing order, whatever lies before them. -/
def Obligations.StreamFramesAreComplete : Prop :=
  ∀ (s : State) (bs : Bytes) (rest : List Request), s.window = [] → s.pending = pushes bs ++ rest →
    ∃ t p, Host.Core.run Sys2Proof.core bs.length s = .next t ∧ IsOrigin bs p ∧
      t.frames = s.frames ++ (List.range p).filterMap (frameAt bs) ∧
      t.pending = rest ∧ t.buffer = s.buffer

/-- Inference. R102: after `n` pushes from an empty window, the window is the suffix of the stream from the least position whose deciding
index is `n` or more. -/
def Obligations.StreamWindowIsUndecidedSuffix : Prop :=
  ∀ (s : State) (bs : Bytes) (rest : List Request), s.window = [] → s.pending = pushes bs ++ rest →
    ∃ t p, Host.Core.run Sys2Proof.core bs.length s = .next t ∧ IsOrigin bs p ∧ p ≤ bs.length ∧ t.window = bs.drop p

/-- Inference. R101 with R102: no frame is lost. A frame at position `p` of the stream is among those emitted once 1029 bytes from `p` on
have been pushed, whatever lies before `p`. -/
def Obligations.NoFrameIsLost : Prop :=
  ∀ (s : State) (bs : Bytes) (rest : List Request) (p : Nat) (f : Bytes),
    s.window = [] → s.pending = pushes bs ++ rest → frameAt bs p = some f → p + 1029 ≤ bs.length →
    ∃ t fs, Host.Core.run Sys2Proof.core bs.length s = .next t ∧ t.frames = s.frames ++ fs ∧ f ∈ fs

/-- Inference. R104 (c) with R78: `FRAME(id, payload)` is a valid raw frame, and pushed from an empty window it is the first frame that its
last byte's PUSH returns, and no earlier byte emits one. -/
def Obligations.BuiltFrameIsEmittedOnItsLastByte : Prop :=
  ∀ (s : State) (id : Byte) (payload : Bytes) (rest : List Request), payload.length ≤ 1024 → s.window = [] →
    s.pending = pushes (frameOf id payload) ++ rest →
    ValidFrame (frameOf id payload) ∧
    ∃ t fs ds, Host.Core.run Sys2Proof.core (payload.length + 5) s = .next t ∧
      t.response = some (.framer (frameOf id payload :: fs) ds) ∧
      t.frames = s.frames ++ frameOf id payload :: fs ∧ t.pending = rest

/-- Inference. R109: a stream of valid frames with no 0xFF at an interior offset of any of them leaves the window empty, and emits exactly
these frames in order, with no diagnostic event. -/
def Obligations.CleanStreamOfFrames : Prop :=
  ∀ (s : State) (fl : List Bytes) (rest : List Request),
    (∀ f ∈ fl, ValidFrame f ∧ ∀ k, 1 ≤ k → k < f.length → f.getD k 0 ≠ 0xFF#8) → s.window = [] →
    s.pending = pushes fl.flatten ++ rest →
    ∃ t, Host.Core.run Sys2Proof.core fl.flatten.length s = .next t ∧ t.window = [] ∧ phaseOf t.window = .pre ∧
      t.frames = s.frames ++ fl ∧ t.diags = s.diags

/-- Inference. R104 (a), for garbage without a marker: any number of garbage bytes before a valid frame with no interior 0xFF: exactly the
frame is emitted, on its last byte. -/
def Obligations.ResyncAfterGarbage : Prop :=
  ∀ (s : State) (garbage f : Bytes) (rest : List Request), (∀ x ∈ garbage, x ≠ 0xFF#8) → ValidFrame f →
    (∀ k, 1 ≤ k → k < f.length → f.getD k 0 ≠ 0xFF#8) → s.window = [] → s.pending = pushes (garbage ++ f) ++ rest →
    ∃ t, Host.Core.run Sys2Proof.core (garbage.length + f.length) s = .next t ∧ t.frames = s.frames ++ [f] ∧
      t.response = some (.framer [f] []) ∧ t.window = [] ∧ t.diags = s.diags

/-- R65: for every id and payload of at most 1024 bytes exactly one checksum byte makes a valid frame, and it is
`(256 - (sum(payload) mod 256)) mod 256`. -/
def Obligations.ChecksumByteIsUnique : Prop :=
  ∀ (id : Byte) (payload : Bytes) (c : Byte), payload.length ≤ 1024 →
    (ValidFrame (0xFF#8 :: id :: BitVec.ofNat 8 (payload.length % 256) :: BitVec.ofNat 8 (payload.length / 256) ::
        (payload ++ [c])) ↔
      c.toNat = (256 - sumBytes payload % 256) % 256)

/-- Inference. R198: changing one payload or checksum byte of a valid frame makes it invalid. -/
def Obligations.SingleByteChangeIsDetected : Prop :=
  ∀ (f : Bytes) (k : Nat) (x : Byte), ValidFrame f → 4 ≤ k → k < f.length → f.getD k 0 ≠ x → ¬ ValidFrame (f.set k x)

/-- Inference. The frame of PUSH and REINIT (R20, R56): the client buffer, every byte of it, and what the host has issued are unchanged; the
outputs only grow. -/
def Obligations.FramerLeavesTheRest : Prop :=
  ∀ (i : Instr) (s t : State), (i = .reinit ∨ ∃ b, i = .push b) → exec i s = .next t →
    t.buffer = s.buffer ∧ (∀ a, readByte? t.buffer a = readByte? s.buffer a) ∧ t.pending = s.pending ∧
      s.frames <+: t.frames ∧ s.diags <+: t.diags

/-! ### FieldTypeCatalog -/

/-- R113 to R121: each WIDTH.T, by its word, returns OK and its type's width; nothing else changes. -/
def Obligations.WidthOfEachType : Prop :=
  ∀ (s : State) (o : Offset) (v : Value),
    let returns := fun (word : BitVec 6) (i : Instr) (n : BitVec 4) =>
      decode (.fieldType word o v) = .op i ∧ exec i s = .next { s with response := some (.fieldType .ok (.width n)) }
    returns 0b000000 .widthU8 1 ∧ returns 0b000001 .widthS8 1 ∧ returns 0b000010 .widthU16 2 ∧
    returns 0b000011 .widthS16 2 ∧ returns 0b000100 .widthU32 4 ∧ returns 0b000101 .widthS32 4 ∧
    returns 0b000110 .widthU64 8 ∧ returns 0b000111 .widthS64 8 ∧ returns 0b001000 .widthFloat 4

/-- R122, R123: READ.U8 and READ.S8: the byte at the offset, read as a natural and in two's complement; OutOfBounds at or past `N`. -/
def Obligations.ReadByteTypes : Prop :=
  ∀ (s : State) (o : Offset) (u : Value),
    decode (.fieldType 0b010000#6 o u) = .op (.readU8 o) ∧ decode (.fieldType 0b010001#6 o u) = .op (.readS8 o) ∧
    (∀ b, readByte? s.buffer o.toNat = some b →
      exec (.readU8 o) s = .next { s with response := some (.fieldType .ok (.rdata (.w8 b))) } ∧
      exec (.readS8 o) s = .next { s with response := some (.fieldType .ok (.rdata (.w8 b))) } ∧
      FieldType.number .u8 (.w8 b) = .int b.toNat ∧
      FieldType.number .s8 (.w8 b) = .int (if b.toNat ≤ 127 then (b.toNat : Int) else (b.toNat : Int) - 256)) ∧
    (s.buffer.size ≤ o.toNat →
      exec (.readU8 o) s = .next { s with response := some (.fieldType .outOfBounds .nothing) } ∧
      exec (.readS8 o) s = .next { s with response := some (.fieldType .outOfBounds .nothing) })

/-- R124, R126: READ.U16 and READ.S16: two bytes, the low one first. -/
def Obligations.ReadHalfTypes : Prop :=
  ∀ (s : State) (o : Offset) (u : Value),
    decode (.fieldType 0b010010#6 o u) = .op (.readU16 o) ∧ decode (.fieldType 0b010011#6 o u) = .op (.readS16 o) ∧
    (∀ b0 b1, readByte? s.buffer o.toNat = some b0 → readByte? s.buffer (o.toNat + 1) = some b1 →
      let v := BitVec.ofNat 16 (b0.toNat + 256 * b1.toNat)
      exec (.readU16 o) s = .next { s with response := some (.fieldType .ok (.rdata (.w16 v))) } ∧
      exec (.readS16 o) s = .next { s with response := some (.fieldType .ok (.rdata (.w16 v))) } ∧
      FieldType.number .u16 (.w16 v) = .int v.toNat ∧ v.toNat = b0.toNat + 256 * b1.toNat ∧
      FieldType.number .s16 (.w16 v) = .int (if v.toNat ≤ 32767 then (v.toNat : Int) else (v.toNat : Int) - 65536)) ∧
    (s.buffer.size < o.toNat + 2 →
      exec (.readU16 o) s = .next { s with response := some (.fieldType .outOfBounds .nothing) } ∧
      exec (.readS16 o) s = .next { s with response := some (.fieldType .outOfBounds .nothing) })

/-- R127, R128, R125: READ.U32, READ.S32 and READ.Float: four bytes, the low one first; Float is the bit pattern, unchanged. -/
def Obligations.ReadWordTypes : Prop :=
  ∀ (s : State) (o : Offset) (u : Value),
    decode (.fieldType 0b010100#6 o u) = .op (.readU32 o) ∧ decode (.fieldType 0b010101#6 o u) = .op (.readS32 o) ∧
    decode (.fieldType 0b011000#6 o u) = .op (.readFloat o) ∧
    (∀ b0 b1 b2 b3, readByte? s.buffer o.toNat = some b0 → readByte? s.buffer (o.toNat + 1) = some b1 →
      readByte? s.buffer (o.toNat + 2) = some b2 → readByte? s.buffer (o.toNat + 3) = some b3 →
      let v := BitVec.ofNat 32 (b0.toNat + 2 ^ 8 * b1.toNat + 2 ^ 16 * b2.toNat + 2 ^ 24 * b3.toNat)
      exec (.readU32 o) s = .next { s with response := some (.fieldType .ok (.rdata (.w32 v))) } ∧
      exec (.readS32 o) s = .next { s with response := some (.fieldType .ok (.rdata (.w32 v))) } ∧
      exec (.readFloat o) s = .next { s with response := some (.fieldType .ok (.rdata (.w32 v))) } ∧
      v.toNat = b0.toNat + 2 ^ 8 * b1.toNat + 2 ^ 16 * b2.toNat + 2 ^ 24 * b3.toNat ∧
      FieldType.number .u32 (.w32 v) = .int v.toNat ∧ FieldType.number .float (.w32 v) = .floatBits v ∧
      FieldType.number .s32 (.w32 v) = .int (if v.toNat < 2 ^ 31 then (v.toNat : Int) else (v.toNat : Int) - 2 ^ 32)) ∧
    (s.buffer.size < o.toNat + 4 →
      exec (.readU32 o) s = .next { s with response := some (.fieldType .outOfBounds .nothing) } ∧
      exec (.readS32 o) s = .next { s with response := some (.fieldType .outOfBounds .nothing) } ∧
      exec (.readFloat o) s = .next { s with response := some (.fieldType .outOfBounds .nothing) })

/-- R129, R130: READ.U64 and READ.S64: eight bytes, the low one first, all 64 bits kept. -/
def Obligations.ReadDoubleTypes : Prop :=
  ∀ (s : State) (o : Offset) (u : Value),
    decode (.fieldType 0b010110#6 o u) = .op (.readU64 o) ∧ decode (.fieldType 0b010111#6 o u) = .op (.readS64 o) ∧
    (∀ b0 b1 b2 b3 b4 b5 b6 b7, readByte? s.buffer o.toNat = some b0 → readByte? s.buffer (o.toNat + 1) = some b1 →
      readByte? s.buffer (o.toNat + 2) = some b2 → readByte? s.buffer (o.toNat + 3) = some b3 →
      readByte? s.buffer (o.toNat + 4) = some b4 → readByte? s.buffer (o.toNat + 5) = some b5 →
      readByte? s.buffer (o.toNat + 6) = some b6 → readByte? s.buffer (o.toNat + 7) = some b7 →
      let n := b0.toNat + 256 * b1.toNat + 256 ^ 2 * b2.toNat + 256 ^ 3 * b3.toNat + 256 ^ 4 * b4.toNat +
        256 ^ 5 * b5.toNat + 256 ^ 6 * b6.toNat + 256 ^ 7 * b7.toNat
      let v := BitVec.ofNat 64 n
      v.toNat = n ∧
      exec (.readU64 o) s = .next { s with response := some (.fieldType .ok (.rdata (.w64 v))) } ∧
      exec (.readS64 o) s = .next { s with response := some (.fieldType .ok (.rdata (.w64 v))) } ∧
      FieldType.number .u64 (.w64 v) = .int v.toNat ∧
      FieldType.number .s64 (.w64 v) = .int (if v.toNat < 2 ^ 63 then (v.toNat : Int) else (v.toNat : Int) - 2 ^ 64)) ∧
    (s.buffer.size < o.toNat + 8 →
      exec (.readU64 o) s = .next { s with response := some (.fieldType .outOfBounds .nothing) } ∧
      exec (.readS64 o) s = .next { s with response := some (.fieldType .outOfBounds .nothing) })

/-- Inference. R131: a READ.T changes nothing but what it returns, and depends on no byte outside `offset .. offset + w - 1`: on two states
whose buffers have one length and agree there it returns the same. WIDTH.T returns the same on any two states. -/
def Obligations.ReadDependsOnItsBytesAlone : Prop :=
  ∀ (T : FieldType) (o : Offset) (s s' : State),
    (∃ r, exec T.widthInstr s = .next { s with response := some r } ∧
      exec T.widthInstr s' = .next { s' with response := some r }) ∧
    (s.buffer.size = s'.buffer.size →
      (∀ i, i < T.width → readByte? s.buffer (o.toNat + i) = readByte? s'.buffer (o.toNat + i)) →
      ∃ r, exec (T.readInstr o) s = .next { s with response := some r } ∧
        exec (T.readInstr o) s' = .next { s' with response := some r })

/-- R137, R138: WRITE.U8 and WRITE.S8 store the byte at the offset and nothing else; OutOfBounds at or past `N` writes nothing. -/
def Obligations.WriteByteTypes : Prop :=
  ∀ (s : State) (o : Offset) (v : BitVec 8),
    decode (.fieldType 0b100000#6 o (.w8 v)) = .op (.writeU8 o v) ∧
    decode (.fieldType 0b100001#6 o (.w8 v)) = .op (.writeS8 o v) ∧
    (∀ i, i = .writeU8 o v ∨ i = .writeS8 o v →
      (s.buffer.wf → o.toNat < s.buffer.size →
        ∃ m, exec i s = .next { s with buffer := m, response := some (.fieldType .ok .nothing) } ∧
          m.size = s.buffer.size ∧ m.wf ∧
          ∀ a, readByte? m a = if a = o.toNat then some v else readByte? s.buffer a) ∧
      (s.buffer.size ≤ o.toNat → exec i s = .next { s with response := some (.fieldType .outOfBounds .nothing) })) ∧
    (∀ z : Int, 0 ≤ z → z ≤ 255 → FieldType.wdataOf .u8 (.int z) = some (.w8 (BitVec.ofInt 8 z))) ∧
    ∀ z : Int, -128 ≤ z → z ≤ 127 → FieldType.wdataOf .s8 (.int z) = some (.w8 (BitVec.ofInt 8 z))

/-- R139, R140: WRITE.U16 and WRITE.S16 store two bytes, the low one first, and nothing else. -/
def Obligations.WriteHalfTypes : Prop :=
  ∀ (s : State) (o : Offset) (v : BitVec 16),
    decode (.fieldType 0b100010#6 o (.w16 v)) = .op (.writeU16 o v) ∧
    decode (.fieldType 0b100011#6 o (.w16 v)) = .op (.writeS16 o v) ∧
    (∀ i, i = .writeU16 o v ∨ i = .writeS16 o v →
      (s.buffer.wf → o.toNat + 2 ≤ s.buffer.size →
        ∃ m, exec i s = .next { s with buffer := m, response := some (.fieldType .ok .nothing) } ∧
          m.size = s.buffer.size ∧ m.wf ∧
          ∀ a, readByte? m a =
            if a = o.toNat then some (v.extractLsb' 0 8)
            else if a = o.toNat + 1 then some (v.extractLsb' 8 8)
            else readByte? s.buffer a) ∧
      (s.buffer.size < o.toNat + 2 → exec i s = .next { s with response := some (.fieldType .outOfBounds .nothing) })) ∧
    (∀ z : Int, 0 ≤ z → z ≤ 65535 → FieldType.wdataOf .u16 (.int z) = some (.w16 (BitVec.ofInt 16 z))) ∧
    ∀ z : Int, -32768 ≤ z → z ≤ 32767 → FieldType.wdataOf .s16 (.int z) = some (.w16 (BitVec.ofInt 16 z))

/-- R141, R142, R144: WRITE.U32, WRITE.S32 and WRITE.Float store four bytes, the low one first, and nothing else; Float's bits are
stored unchanged. -/
def Obligations.WriteWordTypes : Prop :=
  ∀ (s : State) (o : Offset) (v : BitVec 32),
    decode (.fieldType 0b100100#6 o (.w32 v)) = .op (.writeU32 o v) ∧
    decode (.fieldType 0b100101#6 o (.w32 v)) = .op (.writeS32 o v) ∧
    decode (.fieldType 0b101000#6 o (.w32 v)) = .op (.writeFloat o v) ∧
    (∀ i, i = .writeU32 o v ∨ i = .writeS32 o v ∨ i = .writeFloat o v →
      (s.buffer.wf → o.toNat + 4 ≤ s.buffer.size →
        ∃ m, exec i s = .next { s with buffer := m, response := some (.fieldType .ok .nothing) } ∧
          m.size = s.buffer.size ∧ m.wf ∧
          (∀ k, k < 4 → readByte? m (o.toNat + k) = some (v.extractLsb' (8 * k) 8)) ∧
          ∀ a, (a < o.toNat ∨ o.toNat + 4 ≤ a) → readByte? m a = readByte? s.buffer a) ∧
      (s.buffer.size < o.toNat + 4 → exec i s = .next { s with response := some (.fieldType .outOfBounds .nothing) })) ∧
    (∀ z : Int, 0 ≤ z → z < 2 ^ 32 → FieldType.wdataOf .u32 (.int z) = some (.w32 (BitVec.ofInt 32 z))) ∧
    (∀ z : Int, -2 ^ 31 ≤ z → z < 2 ^ 31 → FieldType.wdataOf .s32 (.int z) = some (.w32 (BitVec.ofInt 32 z))) ∧
    FieldType.wdataOf .float (.floatBits v) = some (.w32 v)

/-- R143, R145: WRITE.U64 and WRITE.S64 store eight bytes, the low one first, and nothing else. -/
def Obligations.WriteDoubleTypes : Prop :=
  ∀ (s : State) (o : Offset) (v : BitVec 64),
    decode (.fieldType 0b100110#6 o (.w64 v)) = .op (.writeU64 o v) ∧
    decode (.fieldType 0b100111#6 o (.w64 v)) = .op (.writeS64 o v) ∧
    (∀ i, i = .writeU64 o v ∨ i = .writeS64 o v →
      (s.buffer.wf → o.toNat + 8 ≤ s.buffer.size →
        ∃ m, exec i s = .next { s with buffer := m, response := some (.fieldType .ok .nothing) } ∧
          m.size = s.buffer.size ∧ m.wf ∧
          (∀ k, k < 8 → readByte? m (o.toNat + k) = some (v.extractLsb' (8 * k) 8)) ∧
          ∀ a, (a < o.toNat ∨ o.toNat + 8 ≤ a) → readByte? m a = readByte? s.buffer a) ∧
      (s.buffer.size < o.toNat + 8 → exec i s = .next { s with response := some (.fieldType .outOfBounds .nothing) })) ∧
    (∀ z : Int, 0 ≤ z → z < 2 ^ 64 → FieldType.wdataOf .u64 (.int z) = some (.w64 (BitVec.ofInt 64 z))) ∧
    ∀ z : Int, -2 ^ 63 ≤ z → z < 2 ^ 63 → FieldType.wdataOf .s64 (.int z) = some (.w64 (BitVec.ofInt 64 z))

/-- Inference. R150, R171: for one type, buffer length and offset, WRITE.T returns OutOfBounds exactly when READ.T does, exactly when
`offset + width > N` as naturals; the state is then as before but for the status. -/
def Obligations.ReadAndWriteFaultTogether : Prop :=
  ∀ (s : State) (T : FieldType) (o : Offset) (v : Value) (i : Instr), T.writeInstr o v = some i →
    (exec i s = .next { s with response := some (.fieldType .outOfBounds .nothing) } ↔
      s.buffer.size < o.toNat + T.width) ∧
    (exec (T.readInstr o) s = .next { s with response := some (.fieldType .outOfBounds .nothing) } ↔
      s.buffer.size < o.toNat + T.width)

/-- Inference. R148: after a WRITE.T that returns OK, READ.T at the offset returns the value written, and a READ of any type whose bytes do not
meet those written returns what it returned before. -/
def Obligations.ReadAfterWrite : Prop :=
  ∀ (s : State) (T : FieldType) (o : Offset) (v : Value) (i : Instr), s.buffer.wf → T.writeInstr o v = some i →
    o.toNat + T.width ≤ s.buffer.size →
    ∃ t, exec i s = .next t ∧ t.response = some (.fieldType .ok .nothing) ∧
      exec (T.readInstr o) t = .next { t with response := some (.fieldType .ok (.rdata v)) } ∧
      ∀ (T' : FieldType) (o' : Offset),
        (o'.toNat + T'.width ≤ o.toNat ∨ o.toNat + T.width ≤ o'.toNat) →
        ∃ r, exec (T'.readInstr o') s = .next { s with response := some r } ∧
          exec (T'.readInstr o') t = .next { t with response := some r }

/-- Inference. R149: a later WRITE replaces exactly the bytes it covers; what it leaves of an earlier one keeps the earlier value. -/
def Obligations.OverlappingWrites : Prop :=
  ∀ (s : State) (T T' : FieldType) (o o' : Offset) (v v' : Value) (i i' : Instr), s.buffer.wf →
    T.writeInstr o v = some i → T'.writeInstr o' v' = some i' →
    o.toNat + T.width ≤ s.buffer.size → o'.toNat + T'.width ≤ s.buffer.size →
    ∃ t u, exec i s = .next t ∧ exec i' t = .next u ∧ ∀ a,
      readByte? u.buffer a =
        if o'.toNat ≤ a ∧ a < o'.toNat + T'.width then some (BitVec.ofNat 8 (v'.uint / 256 ^ (a - o'.toNat)))
        else if o.toNat ≤ a ∧ a < o.toNat + T.width then some (BitVec.ofNat 8 (v.uint / 256 ^ (a - o.toNat)))
        else readByte? s.buffer a

/-- Inference. R46: after a wider WRITE, a READ of a type that fits in it at `offset + k` returns the part of the value that starts at byte
`k`; at `k = 0` that is the low-order part. -/
def Obligations.NarrowReadOfWiderWrite : Prop :=
  ∀ (s : State) (T T' : FieldType) (o o' : Offset) (k : Nat) (v : Value) (i : Instr), s.buffer.wf →
    T.writeInstr o v = some i → o.toNat + T.width ≤ s.buffer.size → o'.toNat = o.toNat + k →
    k + T'.width ≤ T.width →
    ∃ t v', exec i s = .next t ∧
      exec (T'.readInstr o') t = .next { t with response := some (.fieldType .ok (.rdata v')) } ∧
      v'.uint = v.uint / 256 ^ k % 256 ^ T'.width

/-- Inference. R133: a wide READ is the little-endian join of two narrower READs of its halves. -/
def Obligations.WideReadJoinsItsHalves : Prop :=
  ∀ (s : State) (T H : FieldType) (o o' : Offset), T.width = H.width + H.width → o'.toNat = o.toNat + H.width →
    o.toNat + T.width ≤ s.buffer.size →
    ∃ v low high, exec (T.readInstr o) s = .next { s with response := some (.fieldType .ok (.rdata v)) } ∧
      exec (H.readInstr o) s = .next { s with response := some (.fieldType .ok (.rdata low)) } ∧
      exec (H.readInstr o') s = .next { s with response := some (.fieldType .ok (.rdata high)) } ∧
      v.uint = low.uint + 256 ^ H.width * high.uint

/-- Inference. R50: repeating a WRITE.T with the same operands, or a REINIT, changes nothing more. -/
def Obligations.WriteAndReinitAreIdempotent : Prop :=
  (∀ (s : State) (T : FieldType) (o : Offset) (v : Value) (i : Instr), s.buffer.wf → T.writeInstr o v = some i →
    ∃ t, exec i s = .next t ∧ exec i t = .next t) ∧
  ∀ s : State, ∃ t, exec .reinit s = .next t ∧ exec .reinit t = .next t

/-- R135, R146, R147: the numbers of a type are exactly those of its range, each has one value of `8w` bits that reads back as it,
every value is some number's, and an integer outside the range has no value. That a number is an exact integer or a 32-bit pattern,
so that an integer is no number of Float and a pattern no number of an integer type, is the model's choice (log entry 21). -/
def Obligations.NumbersAndValues : Prop :=
  (∀ (T : FieldType) (v : Value), v.bits = 8 * T.width → T.wdataOf (T.number v) = some v) ∧
  (∀ (T : FieldType) (n : Number) (v : Value), T.wdataOf n = some v → T.number v = n ∧ v.bits = 8 * T.width) ∧
  (∀ (T : FieldType) (z : Int), T = .u8 ∨ T = .u16 ∨ T = .u32 ∨ T = .u64 →
    (T.wdataOf (.int z) = none ↔ z < 0 ∨ 2 ^ (8 * T.width) ≤ z)) ∧
  (∀ (T : FieldType) (z : Int), T = .s8 ∨ T = .s16 ∨ T = .s32 ∨ T = .s64 →
    (T.wdataOf (.int z) = none ↔ z < -2 ^ (8 * T.width - 1) ∨ 2 ^ (8 * T.width - 1) ≤ z)) ∧
  (∀ z : Int, FieldType.wdataOf .float (.int z) = none) ∧
  ∀ (T : FieldType) (bits : BitVec 32), T ≠ .float → T.wdataOf (.floatBits bits) = none

/-- Inference. R134: on a valid raw frame `f` as the client buffer: the marker, the id, the payload length, each payload byte and the checksum
byte by READ, and OutOfBounds for a field that reaches past the end. -/
def Obligations.ReadsOnAnEmittedFrame : Prop :=
  ∀ (s : State) (f : Bytes), ValidFrame f → s.buffer = memoryOf f →
    let reads := fun (T : FieldType) (o : Nat) (v : Value) =>
      exec (T.readInstr (BitVec.ofNat 32 o)) s = .next { s with response := some (.fieldType .ok (.rdata v)) }
    s.buffer.size = frameLength f + 5 ∧
    reads .u8 0 (.w8 0xFF) ∧ reads .u8 1 (.w8 (f.getD 1 0)) ∧ reads .u16 2 (.w16 (BitVec.ofNat 16 (frameLength f))) ∧
    (∀ k, k < frameLength f → reads .u8 (4 + k) (.w8 (f.getD (4 + k) 0))) ∧
    reads .u8 (4 + frameLength f) (.w8 (f.getD (4 + frameLength f) 0)) ∧
    ∀ (T : FieldType) (o : Offset), f.length < o.toNat + T.width →
      exec (T.readInstr o) s = .next { s with response := some (.fieldType .outOfBounds .nothing) }

/-- Inference. The frame of WIDTH.T and READ.T (R111, R112, R131): the window, the client buffer and every byte of it, the outputs and what
the host has issued are unchanged. -/
def Obligations.WidthAndReadChangeNothing : Prop :=
  ∀ (T : FieldType) (o : Offset) (i : Instr) (s : State), i = T.widthInstr ∨ i = T.readInstr o →
    ∃ t, exec i s = .next t ∧ t.window = s.window ∧ t.buffer = s.buffer ∧
      (∀ a, readByte? t.buffer a = readByte? s.buffer a) ∧ t.pending = s.pending ∧ t.frames = s.frames ∧
      t.diags = s.diags

/-- The frame of WRITE.T (R136): the window, the outputs, what the host has issued, the buffer's length and every byte outside
`offset .. offset + width - 1` are unchanged. -/
def Obligations.WriteChangesOnlyItsBytes : Prop :=
  ∀ (T : FieldType) (o : Offset) (v : Value) (i : Instr) (s : State), T.writeInstr o v = some i → s.buffer.wf →
    ∃ t, exec i s = .next t ∧ t.window = s.window ∧ t.pending = s.pending ∧ t.frames = s.frames ∧ t.diags = s.diags ∧
      t.buffer.size = s.buffer.size ∧
      ∀ a, (a < o.toNat ∨ o.toNat + T.width ≤ a) → readByte? t.buffer a = readByte? s.buffer a

/-! ### The whole machine -/

/-- Inference. R56: a framer operation and a field-type operation commute: in either order they leave the same window, buffer and outputs, and
each returns what it returns alone. -/
def Obligations.SubBlocksCommute : Prop :=
  ∀ (s : State) (i j : Instr), (i = .reinit ∨ ∃ b, i = .push b) → j ≠ .reinit → (∀ b, j ≠ .push b) →
    s.window.length < 1029 →
    ∃ t u t' u', exec i s = .next t ∧ exec j t = .next u ∧ exec j s = .next t' ∧ exec i t' = .next u' ∧
      u.window = u'.window ∧ u.buffer = u'.buffer ∧ u.frames = u'.frames ∧ u.diags = u'.diags ∧
      u.pending = u'.pending ∧ u.response = t'.response ∧ u'.response = t.response

/-- R176, R166: every operation of the block completes in every state whose window has room, whatever the buffer and the operands;
a field-type operation's failure is a status it returns. -/
def Obligations.EveryOperationCompletes : Prop :=
  ∀ (s : State) (i : Instr), s.window.length < 1029 → ∃ t r, exec i s = .next t ∧ t.response = some r ∧
    (r.status = none ↔ i = .reinit ∨ ∃ b, i = .push b) ∧
    (r.status = some .outOfBounds → t = { s with response := some r }) ∧
    r.status ≠ some .illegalOp ∧ r.status ≠ some .illegalType

/-- Inference. R27, R100: every step keeps the invariant: a quiescent window, buffers in canonical form, and valid frames only in the output. -/
def Obligations.EveryStepKeepsTheInvariant : Prop :=
  ∀ s t : State, Inv s → step s = .next t → Inv t

/-- The invariant holds right after reset. -/
def Obligations.InvariantHoldsAtReset : Prop := Inv State.reset

/-- R166, R183: in a state that meets the invariant no step stops with a fault. That a step may refuse a WRITE.T value of the wrong
width, and nothing else, is the model's choice (log entry 6). -/
def Obligations.NoStepFaults : Prop :=
  ∀ s : State, Inv s → (∃ t, step s = .next t) ∨
    (step s = .refused .wdataWidth ∧ ∃ c rest, s.pending = .issue c :: rest ∧ c.wellFormed = false)
end

