-- ==== Sys2Proof/Laws/Memory.lean ====
section
/-! SUPPORT. The laws of the client buffer: the canonical form is kept, a read after a write, and what a run of bytes holds. -/

namespace Sys2Proof.Machine

/-! ### One cell -/

/-- A read of the cell list after a write: the byte written there, every other address as before, whatever the list's order. -/
theorem cellAt_putCell_self (a : Nat) (b : Byte) (cells : List Host.Cell)
    (h : cells.Pairwise (fun x y => x.1 < y.1)) : cellAt a (putCell a b cells) = b := by
  induction cells with
  | nil => by_cases hb : b = Config.unlistedByte <;> simp [putCell, cellAt, hb]
  | cons c rest ih =>
    obtain ⟨k, v⟩ := c
    have hr := (List.pairwise_cons.1 h).2
    have hk : ∀ c ∈ rest, k < c.1 := (List.pairwise_cons.1 h).1
    have absent : ∀ l : List Host.Cell, (∀ c ∈ l, a < c.1) → cellAt a l = Config.unlistedByte := by
      intro l
      induction l with
      | nil => intro _; rfl
      | cons c l ihl =>
        intro hl
        have h1 : c.1 ≠ a := by have := hl c (by simp); omega
        simp only [cellAt, h1, if_false]
        exact ihl fun c' hc' => hl c' (by simp [hc'])
    by_cases h1 : a < k
    · by_cases hb : b = Config.unlistedByte
      · simp only [putCell, h1, hb, if_true]
        refine absent _ ?_
        intro c hc
        rcases List.mem_cons.1 hc with rfl | hc
        · exact h1
        · exact lt_trans h1 (hk c hc)
      · simp [putCell, cellAt, h1, hb]
    · by_cases h2 : a = k
      · subst h2
        by_cases hb : b = Config.unlistedByte
        · simp only [putCell, lt_irrefl, if_false, if_true, hb]
          exact absent _ hk
        · simp [putCell, cellAt, hb]
      · have h3 : k ≠ a := fun h => h2 h.symm
        simp only [putCell, h1, h2, if_false, cellAt, h3]
        exact ih hr

theorem cellAt_putCell_other (a a' : Nat) (b : Byte) (cells : List Host.Cell) (hne : a' ≠ a) :
    cellAt a' (putCell a b cells) = cellAt a' cells := by
  have hne' : a ≠ a' := fun h => hne h.symm
  induction cells with
  | nil => by_cases hb : b = Config.unlistedByte <;> simp [putCell, cellAt, hb, hne']
  | cons c rest ih =>
    obtain ⟨k, v⟩ := c
    by_cases h1 : a < k
    · by_cases hb : b = Config.unlistedByte <;> simp [putCell, cellAt, h1, hb, hne']
    · by_cases h2 : a = k
      · subst h2
        by_cases hb : b = Config.unlistedByte <;> simp [putCell, cellAt, hb, hne']
      · simp only [putCell, h1, h2, if_false, cellAt, ih]

/-- A write keeps the cells' order and puts no address in that is neither listed nor the written one. -/
theorem mem_putCell {a : Nat} {b : Byte} {cells : List Host.Cell} {c : Host.Cell} (h : c ∈ putCell a b cells) :
    c ∈ cells ∨ (c = (a, b) ∧ b ≠ Config.unlistedByte) := by
  induction cells with
  | nil =>
    by_cases hb : b = Config.unlistedByte
    · simp [putCell, hb] at h
    · simp [putCell, hb] at h; exact .inr ⟨h, hb⟩
  | cons x rest ih =>
    obtain ⟨k, v⟩ := x
    simp only [putCell] at h
    split_ifs at h with h1 hb h2 hb
    · exact .inl h
    · rcases List.mem_cons.1 h with rfl | h
      · exact .inr ⟨rfl, hb⟩
      · exact .inl h
    · exact .inl (List.mem_cons_of_mem _ h)
    · rcases List.mem_cons.1 h with rfl | h
      · exact .inr ⟨rfl, hb⟩
      · exact .inl (List.mem_cons_of_mem _ h)
    · rcases List.mem_cons.1 h with rfl | h
      · exact .inl (by simp)
      · exact (ih h).imp_left (List.mem_cons_of_mem _)

theorem putCell_pairwise (a : Nat) (b : Byte) (cells : List Host.Cell)
    (h : cells.Pairwise (fun x y => x.1 < y.1)) : (putCell a b cells).Pairwise (fun x y => x.1 < y.1) := by
  induction cells with
  | nil => by_cases hb : b = Config.unlistedByte <;> simp [putCell, hb]
  | cons c rest ih =>
    obtain ⟨k, v⟩ := c
    obtain ⟨hk, hr⟩ := List.pairwise_cons.1 h
    simp only [putCell]
    split_ifs with h1 hb h2 hb
    · exact h
    · refine List.pairwise_cons.2 ⟨?_, h⟩
      intro c hc
      rcases List.mem_cons.1 hc with rfl | hc
      · exact h1
      · exact lt_trans h1 (hk c hc)
    · exact hr
    · subst h2
      exact List.pairwise_cons.2 ⟨hk, hr⟩
    · refine List.pairwise_cons.2 ⟨?_, ih hr⟩
      intro c hc
      rcases mem_putCell hc with hc | ⟨rfl, -⟩
      · exact hk c hc
      · show k < a
        omega

/-! ### One byte of the buffer -/

@[simp] theorem writeByte_size (m : Memory) (a : Nat) (b : Byte) : (writeByte m a b).size = m.size := by
  unfold writeByte
  split <;> rfl

/-- A write of one byte keeps the canonical form. -/
theorem writeByte_wf {m : Memory} (a : Nat) (b : Byte) (h : m.wf) : (writeByte m a b).wf := by
  unfold writeByte
  split
  · next ha =>
    refine ⟨putCell_pairwise a b _ h.1, ?_⟩
    intro c hc
    rcases mem_putCell hc with hc | ⟨rfl, hb⟩
    · exact h.2 c hc
    · exact ⟨ha, hb⟩
  · exact h

/-- What a buffer holds after a write of one byte inside it. -/
theorem readByte?_writeByte {m : Memory} {a : Nat} (b : Byte) (h : m.wf) (ha : a < m.size) (a' : Nat) :
    readByte? (writeByte m a b) a' = if a' = a then some b else readByte? m a' := by
  by_cases hne : a' = a
  · subst hne
    simp [readByte?, writeByte, ha, cellAt_putCell_self a' b _ h.1]
  · simp [readByte?, writeByte, ha, hne, cellAt_putCell_other a a' b _ hne]

theorem readByte?_eq_some_iff {m : Memory} {a : Nat} {b : Byte} :
    readByte? m a = some b ↔ a < m.size ∧ cellAt a m.cells = b := by
  simp [readByte?]

/-! ### A run of bytes -/

@[simp] theorem memRead_length (m : Memory) (a n : Nat) : (memRead m a n).length = n := by
  induction n generalizing a with
  | zero => rfl
  | succ n ih => simp [memRead, ih]

/-- Element `i` of a read run is the byte at `a + i`. -/
theorem memRead_getElem? (m : Memory) (a n i : Nat) (hi : i < n) :
    (memRead m a n)[i]? = some (cellAt (a + i) m.cells) := by
  induction n generalizing a i with
  | zero => omega
  | succ n ih =>
    cases i with
    | zero => rfl
    | succ i =>
      have := ih (a + 1) i (by omega)
      simpa [memRead, Nat.add_assoc, Nat.add_comm 1 i] using this

@[simp] theorem memWrite_size (m : Memory) (a : Nat) (bs : Bytes) : (memWrite m a bs).size = m.size := by
  induction bs generalizing m a with
  | nil => rfl
  | cons b rest ih => simp [memWrite, ih]

/-- A write of a run of bytes keeps the canonical form. -/
theorem memWrite_wf {m : Memory} (a : Nat) (bs : Bytes) (h : m.wf) : (memWrite m a bs).wf := by
  induction bs generalizing m a with
  | nil => exact h
  | cons b rest ih => exact ih (a + 1) (writeByte_wf a b h)

/-- What a buffer holds after a write of a run inside it: the run's bytes at `a .. a+|bs|-1`, every other byte as before. -/
theorem readByte?_memWrite {m : Memory} (a : Nat) (bs : Bytes) (h : m.wf) (hin : a + bs.length ≤ m.size) (a' : Nat) :
    readByte? (memWrite m a bs) a' = if a ≤ a' ∧ a' < a + bs.length then bs[a' - a]? else readByte? m a' := by
  induction bs generalizing m a with
  | nil => simp [memWrite]
  | cons b rest ih =>
    have hlen : a + 1 + rest.length ≤ m.size := by simp at hin; omega
    have ha : a < m.size := by omega
    have := ih (a + 1) (writeByte_wf a b h) (by simpa using hlen)
    rw [memWrite, this, readByte?_writeByte b h ha]
    by_cases h1 : a' = a
    · subst h1
      simp
    · by_cases h2 : a + 1 ≤ a' ∧ a' < a + 1 + rest.length
      · have h3 : a ≤ a' ∧ a' < a + (b :: rest).length := by simp; omega
        have h4 : a' - a = (a' - (a + 1)) + 1 := by omega
        rw [if_pos h2, if_pos h3, h4, List.getElem?_cons_succ]
      · have h3 : ¬ (a ≤ a' ∧ a' < a + (b :: rest).length) := by simp; omega
        rw [if_neg h2, if_neg h3, if_neg h1]

/-- The buffer made of a byte sequence is in canonical form and has its length. -/
theorem memoryOf_wf (bs : Bytes) : (memoryOf bs).wf :=
  memWrite_wf 0 bs ⟨List.Pairwise.nil, by simp⟩

@[simp] theorem memoryOf_size (bs : Bytes) : (memoryOf bs).size = bs.length := by
  simp [memoryOf]

/-- The buffer made of a byte sequence holds that sequence. -/
theorem readByte?_memoryOf (bs : Bytes) (a : Nat) : readByte? (memoryOf bs) a = bs[a]? := by
  rw [memoryOf, readByte?_memWrite 0 bs ⟨List.Pairwise.nil, by simp⟩ (by simp)]
  by_cases h : a < bs.length
  · simp [h]
  · simp [readByte?, h]

/-- The reset state's buffer is in canonical form. -/
theorem reset_buffer_wf : State.reset.buffer.wf := ⟨List.Pairwise.nil, by simp [State.reset]⟩

end Sys2Proof.Machine
end

