-- ==== Sys2Proof/Laws/Operands.lean ====
section
/-! SUPPORT. The laws of little-endian assembly, of values and of sums. -/

namespace Sys2Proof

@[simp] theorem leBytes_length (v w : Nat) : (leBytes v w).length = w := by
  induction w generalizing v with
  | zero => rfl
  | succ w ih => simp [leBytes, ih]

/-- Element `i` of `le_bytes(v, w)` is `(v / 256^i) mod 256` (R13). -/
theorem leBytes_getElem? (v w i : Nat) (hi : i < w) :
    (leBytes v w)[i]? = some (BitVec.ofNat 8 (v / 256 ^ i)) := by
  induction w generalizing v i with
  | zero => omega
  | succ w ih =>
    cases i with
    | zero => simp [leBytes]
    | succ i =>
      have := ih (v / 256) i (by omega)
      simpa [leBytes, Nat.div_div_eq_div_mul, Nat.pow_succ, Nat.mul_comm] using this

/-- `le` is below `256^w` (R13). -/
theorem leNat_lt (bs : Bytes) : leNat bs < 256 ^ bs.length := by
  induction bs with
  | nil => simp [leNat]
  | cons b rest ih =>
    have := b.isLt
    simp only [leNat, List.length_cons, Nat.pow_succ]
    omega

/-- `le` is the inverse of `le_bytes` (R13). -/
theorem leNat_leBytes (v w : Nat) : leNat (leBytes v w) = v % 256 ^ w := by
  induction w generalizing v with
  | zero => simp [leBytes, leNat, Nat.mod_one]
  | succ w ih =>
    simp only [leBytes, leNat, ih, BitVec.toNat_ofNat, Nat.reducePow]
    rw [Nat.pow_succ, Nat.mul_comm (256 ^ w) 256, Nat.mod_mul]

/-- `le_bytes` is the inverse of `le` (R13). -/
theorem leBytes_leNat (bs : Bytes) : leBytes (leNat bs) bs.length = bs := by
  induction bs with
  | nil => rfl
  | cons b rest ih =>
    have hb := b.isLt
    simp only [leNat, List.length_cons, leBytes]
    have h1 : BitVec.ofNat 8 (b.toNat + 256 * leNat rest) = b := by
      apply BitVec.eq_of_toNat_eq
      simp only [BitVec.toNat_ofNat]
      omega
    have h2 : (b.toNat + 256 * leNat rest) / 256 = leNat rest := by omega
    rw [h1, h2, ih]

/-- `le` of a joined sequence (R133). -/
theorem leNat_append (s t : Bytes) : leNat (s ++ t) = leNat s + 256 ^ s.length * leNat t := by
  induction s with
  | nil => simp [leNat]
  | cons b rest ih =>
    simp only [List.cons_append, leNat, ih, List.length_cons, Nat.pow_succ]
    ring

@[simp] theorem sumBytes_append (s t : Bytes) : sumBytes (s ++ t) = sumBytes s + sumBytes t := by
  induction s with
  | nil => simp [sumBytes]
  | cons b rest ih => simp only [List.cons_append, sumBytes, ih]; omega

/-- The checksum test is the condition of R65. -/
@[simp] theorem Machine.checksumOk_iff (bs : Bytes) : Machine.checksumOk bs = true ↔ sumBytes bs % 256 = 0 := by
  simp [Machine.checksumOk, Config.csMod]

/-- The window holds 1029 bytes (R8). -/
theorem Config.winCap_eq : Config.winCap = 1029 := rfl

/-- A value read has the width of its type, in bits. -/
@[simp] theorem FieldType.toValue_bits (T : FieldType) (v : Nat) : (T.toValue v).bits = 8 * T.width := by
  cases T <;> rfl

/-- The bits of a read value are the natural assembled, when that fits the width (R112). -/
theorem FieldType.toValue_uint (T : FieldType) (v : Nat) : (T.toValue v).uint = v % 256 ^ T.width := by
  cases T <;> simp [FieldType.toValue, Value.uint, FieldType.width]

/-- A natural in range has its own bits as `wdata` (R135). -/
theorem unsignedWdata_of_range {T : FieldType} {z : Int} (h0 : 0 ≤ z) (h1 : z < 2 ^ (8 * T.width)) :
    unsignedWdata T z = some (T.toValue z.toNat) := by
  rw [unsignedWdata, if_pos ⟨h0, h1⟩]

/-- An integer in range has its residue as `wdata` (R135, R147). -/
theorem signedWdata_of_range {T : FieldType} {z : Int} (h0 : -(2 : Int) ^ (8 * T.width - 1) ≤ z)
    (h1 : z < 2 ^ (8 * T.width - 1)) : signedWdata T z = some (T.toValue (z % 2 ^ (8 * T.width)).toNat) := by
  rw [signedWdata, if_pos ⟨h0, h1⟩]

end Sys2Proof
end

