-- ==== Sys2Proof/Laws/State.lean ====
section
/-! SUPPORT. What each update of the state does to each field, so that no proof unfolds a record update. -/

namespace Sys2Proof.Machine

@[simp] theorem State.setWindow_window (s : State) (w : Bytes) : (s.setWindow w).window = w := rfl
@[simp] theorem State.setWindow_buffer (s : State) (w : Bytes) : (s.setWindow w).buffer = s.buffer := rfl
@[simp] theorem State.setWindow_pending (s : State) (w : Bytes) : (s.setWindow w).pending = s.pending := rfl
@[simp] theorem State.setWindow_frames (s : State) (w : Bytes) : (s.setWindow w).frames = s.frames := rfl
@[simp] theorem State.setWindow_diags (s : State) (w : Bytes) : (s.setWindow w).diags = s.diags := rfl
@[simp] theorem State.setWindow_response (s : State) (w : Bytes) : (s.setWindow w).response = s.response := rfl

@[simp] theorem State.setBuffer_window (s : State) (m : Memory) : (s.setBuffer m).window = s.window := rfl
@[simp] theorem State.setBuffer_buffer (s : State) (m : Memory) : (s.setBuffer m).buffer = m := rfl
@[simp] theorem State.setBuffer_pending (s : State) (m : Memory) : (s.setBuffer m).pending = s.pending := rfl
@[simp] theorem State.setBuffer_frames (s : State) (m : Memory) : (s.setBuffer m).frames = s.frames := rfl
@[simp] theorem State.setBuffer_diags (s : State) (m : Memory) : (s.setBuffer m).diags = s.diags := rfl
@[simp] theorem State.setBuffer_response (s : State) (m : Memory) : (s.setBuffer m).response = s.response := rfl

@[simp] theorem State.setPending_window (s : State) (p : List Request) : (s.setPending p).window = s.window := rfl
@[simp] theorem State.setPending_buffer (s : State) (p : List Request) : (s.setPending p).buffer = s.buffer := rfl
@[simp] theorem State.setPending_pending (s : State) (p : List Request) : (s.setPending p).pending = p := rfl
@[simp] theorem State.setPending_frames (s : State) (p : List Request) : (s.setPending p).frames = s.frames := rfl
@[simp] theorem State.setPending_diags (s : State) (p : List Request) : (s.setPending p).diags = s.diags := rfl
@[simp] theorem State.setPending_response (s : State) (p : List Request) : (s.setPending p).response = s.response := rfl

@[simp] theorem State.addFrames_window (s : State) (fs : List Bytes) : (s.addFrames fs).window = s.window := rfl
@[simp] theorem State.addFrames_buffer (s : State) (fs : List Bytes) : (s.addFrames fs).buffer = s.buffer := rfl
@[simp] theorem State.addFrames_pending (s : State) (fs : List Bytes) : (s.addFrames fs).pending = s.pending := rfl
@[simp] theorem State.addFrames_frames (s : State) (fs : List Bytes) : (s.addFrames fs).frames = s.frames ++ fs := rfl
@[simp] theorem State.addFrames_diags (s : State) (fs : List Bytes) : (s.addFrames fs).diags = s.diags := rfl
@[simp] theorem State.addFrames_response (s : State) (fs : List Bytes) : (s.addFrames fs).response = s.response := rfl

@[simp] theorem State.addDiags_window (s : State) (ds : List Diag) : (s.addDiags ds).window = s.window := rfl
@[simp] theorem State.addDiags_buffer (s : State) (ds : List Diag) : (s.addDiags ds).buffer = s.buffer := rfl
@[simp] theorem State.addDiags_pending (s : State) (ds : List Diag) : (s.addDiags ds).pending = s.pending := rfl
@[simp] theorem State.addDiags_frames (s : State) (ds : List Diag) : (s.addDiags ds).frames = s.frames := rfl
@[simp] theorem State.addDiags_diags (s : State) (ds : List Diag) : (s.addDiags ds).diags = s.diags ++ ds := rfl
@[simp] theorem State.addDiags_response (s : State) (ds : List Diag) : (s.addDiags ds).response = s.response := rfl

@[simp] theorem State.respond_window (s : State) (r : Response) : (s.respond r).window = s.window := rfl
@[simp] theorem State.respond_buffer (s : State) (r : Response) : (s.respond r).buffer = s.buffer := rfl
@[simp] theorem State.respond_pending (s : State) (r : Response) : (s.respond r).pending = s.pending := rfl
@[simp] theorem State.respond_frames (s : State) (r : Response) : (s.respond r).frames = s.frames := rfl
@[simp] theorem State.respond_diags (s : State) (r : Response) : (s.respond r).diags = s.diags := rfl
@[simp] theorem State.respond_response (s : State) (r : Response) : (s.respond r).response = some r := rfl

@[simp] theorem deliver_window (fs : List Bytes) (ds : List Diag) (s : State) : (deliver fs ds s).window = s.window := rfl
@[simp] theorem deliver_buffer (fs : List Bytes) (ds : List Diag) (s : State) : (deliver fs ds s).buffer = s.buffer := rfl
@[simp] theorem deliver_pending (fs : List Bytes) (ds : List Diag) (s : State) : (deliver fs ds s).pending = s.pending := rfl
@[simp] theorem deliver_frames (fs : List Bytes) (ds : List Diag) (s : State) : (deliver fs ds s).frames = s.frames ++ fs := rfl
@[simp] theorem deliver_diags (fs : List Bytes) (ds : List Diag) (s : State) : (deliver fs ds s).diags = s.diags ++ ds := rfl
@[simp] theorem deliver_response (fs : List Bytes) (ds : List Diag) (s : State) : (deliver fs ds s).response = some (.framer fs ds) := rfl

@[simp] theorem powerReset_window (s : State) : (powerReset s).window = [] := rfl
@[simp] theorem powerReset_buffer (s : State) : (powerReset s).buffer = s.buffer := rfl
@[simp] theorem powerReset_pending (s : State) : (powerReset s).pending = s.pending := rfl
@[simp] theorem powerReset_frames (s : State) : (powerReset s).frames = s.frames := rfl
@[simp] theorem powerReset_diags (s : State) : (powerReset s).diags = s.diags := rfl
@[simp] theorem powerReset_response (s : State) : (powerReset s).response = none := rfl

@[simp] theorem placeCommand_window (s : State) (c : Command) : (placeCommand s c).window = s.window := rfl
@[simp] theorem placeCommand_buffer (s : State) (c : Command) : (placeCommand s c).buffer = s.buffer := rfl
@[simp] theorem placeCommand_pending (s : State) (c : Command) : (placeCommand s c).pending = .issue c :: s.pending := rfl
@[simp] theorem placeCommand_frames (s : State) (c : Command) : (placeCommand s c).frames = s.frames := rfl
@[simp] theorem placeCommand_diags (s : State) (c : Command) : (placeCommand s c).diags = s.diags := rfl
@[simp] theorem placeCommand_response (s : State) (c : Command) : (placeCommand s c).response = s.response := rfl

end Sys2Proof.Machine
end

