-- ==== Sys2Proof/Laws/Catalog.lean ====
section
/-! SUPPORT. What the three shared field-type operations can do, said once for each. -/

namespace Sys2Proof.Machine

/-- The bounds test is the condition of R51. -/
@[simp] theorem inBounds_iff (m : Memory) (offset : Offset) (w : Nat) :
    inBounds m offset w = true ↔ offset.toNat + w ≤ m.size := by
  simp [inBounds]

/-- WIDTH.T always returns OK with the width, and changes nothing else. -/
theorem widthField_next (T : FieldType) (s : State) :
    widthField T s = .next (s.respond (.fieldType .ok (.width (BitVec.ofNat 4 T.width)))) := rfl

/-- READ.T does one of two things, and changes nothing but what it returns. -/
theorem readField_cases (T : FieldType) (offset : Offset) (s : State) :
    (offset.toNat + T.width ≤ s.buffer.size ∧
      readField T offset s =
        .next (s.respond (.fieldType .ok (.rdata (T.toValue (leNat (memRead s.buffer offset.toNat T.width))))))) ∨
    (s.buffer.size < offset.toNat + T.width ∧
      readField T offset s = .next (s.respond (.fieldType .outOfBounds .nothing))) := by
  by_cases h : offset.toNat + T.width ≤ s.buffer.size
  · exact .inl ⟨h, by simp [readField, h, returnOk]⟩
  · exact .inr ⟨Nat.lt_of_not_le h, by simp [readField, h, reportFault]⟩

/-- WRITE.T does one of two things: it writes its bytes into the buffer, or it returns OutOfBounds and writes none. -/
theorem writeField_cases (T : FieldType) (offset : Offset) (wdata : Value) (s : State) :
    (offset.toNat + T.width ≤ s.buffer.size ∧
      writeField T offset wdata s =
        .next ((s.setBuffer (memWrite s.buffer offset.toNat (leBytes wdata.uint T.width))).respond
          (.fieldType .ok .nothing))) ∨
    (s.buffer.size < offset.toNat + T.width ∧
      writeField T offset wdata s = .next (s.respond (.fieldType .outOfBounds .nothing))) := by
  by_cases h : offset.toNat + T.width ≤ s.buffer.size
  · exact .inl ⟨h, by simp [writeField, h, returnOk]⟩
  · exact .inr ⟨Nat.lt_of_not_le h, by simp [writeField, h, reportFault]⟩

/-- An outcome of READ.T depends only on the run of bytes read and on the length. -/
theorem memRead_congr {m m' : Memory} (a n : Nat) (h : ∀ i, a ≤ i → i < a + n → cellAt i m.cells = cellAt i m'.cells) :
    memRead m a n = memRead m' a n := by
  induction n generalizing a with
  | zero => rfl
  | succ n ih =>
    rw [memRead, memRead, h a (by omega) (by omega), ih (a + 1) fun i h1 h2 => h i (by omega) (by omega)]

/-- A run split in two (R133). -/
theorem memRead_add (m : Memory) (a n k : Nat) : memRead m a (n + k) = memRead m a n ++ memRead m (a + n) k := by
  induction n generalizing a with
  | zero => simp [memRead]
  | succ n ih =>
    have e : n + 1 + k = (n + k) + 1 := by omega
    have e' : a + 1 + n = a + (n + 1) := by omega
    rw [e, memRead, memRead, ih (a + 1), e', List.cons_append]

/-- A buffer read where it has just been written gives the bytes written. -/
theorem memRead_memWrite_same {m : Memory} (a : Nat) (bs : Bytes) (h : m.wf) (hin : a + bs.length ≤ m.size) :
    memRead (memWrite m a bs) a bs.length = bs := by
  apply List.ext_getElem?
  intro i
  by_cases hi : i < bs.length
  · rw [memRead_getElem? _ _ _ _ hi]
    have h1 := readByte?_memWrite a bs h hin (a + i)
    rw [if_pos ⟨by omega, by omega⟩, Nat.add_sub_cancel_left, List.getElem?_eq_getElem hi] at h1
    rw [List.getElem?_eq_getElem hi, (readByte?_eq_some_iff.1 h1).2]
  · rw [List.getElem?_eq_none (by simpa using hi), List.getElem?_eq_none (by omega)]

/-- A run that meets none of the bytes written reads as before. -/
theorem memRead_memWrite_other {m : Memory} (a : Nat) (bs : Bytes) (h : m.wf) (hin : a + bs.length ≤ m.size)
    (a' n : Nat) (hin' : a' + n ≤ m.size) (hd : a' + n ≤ a ∨ a + bs.length ≤ a') :
    memRead (memWrite m a bs) a' n = memRead m a' n := by
  apply memRead_congr
  intro i h1 h2
  have h3 := readByte?_memWrite a bs h hin i
  rw [if_neg (by omega)] at h3
  have h4 : readByte? m i = some (cellAt i m.cells) := by simp [readByte?]; omega
  rw [h4] at h3
  exact (readByte?_eq_some_iff.1 h3).2

end Sys2Proof.Machine
end

