-- ==== Sys2Proof/Laws/Framer.lean ====
section
/-! SUPPORT. The laws of the verdict and of the loop of PUSH: one equation per verdict, and what the loop can leave. -/

namespace Sys2Proof.Machine

@[simp] theorem rescan_nil : rescan [] = { window := [], frames := [], diags := [] } := rfl

/-- The loop stops on a window that waits, and leaves it whole. -/
theorem rescan_of_wait {W : Bytes} {p : Phase} (h : verdict W = .wait p) :
    rescan W = { window := W, frames := [], diags := [] } := by
  cases W with
  | nil => rfl
  | cons b rest => simp only [rescan, h]

/-- On an emission the frame goes first and one byte is dropped (R95). -/
theorem rescan_of_emit {b : Byte} {rest f : Bytes} (h : verdict (b :: rest) = .emit f) :
    rescan (b :: rest) =
      { window := (rescan rest).window, frames := f :: (rescan rest).frames, diags := (rescan rest).diags } := by
  simp only [rescan, h]

/-- On a failure one byte is dropped and the reason's event goes first (R88, R99). -/
theorem rescan_of_fail {b : Byte} {rest : Bytes} {r : FailReason} (h : verdict (b :: rest) = .fail r) :
    rescan (b :: rest) =
      { window := (rescan rest).window, frames := (rescan rest).frames, diags := r.diags ++ (rescan rest).diags } := by
  simp only [rescan, h]

/-- The nine lines of R86 with the constants' values, for case splits. -/
theorem verdict_eq (W : Bytes) : verdict W =
    if W.length = 0 then .wait .pre
    else if W.getD 0 0 ≠ 0xFF#8 then .fail .noMarker
    else if W.length = 1 then .wait .id
    else if W.length = 2 ∨ W.length = 3 then .wait .len
    else if 1024 < frameLength W then .fail .lengthOversize
    else if W.length < frameLength W + 4 then .wait .data
    else if W.length = frameLength W + 4 then .wait .cs
    else if checksumOk ((W.take (frameLength W + 5)).drop 4) then .emit (W.take (frameLength W + 5))
    else .fail .checksumMismatch := rfl

/-! One equation for each line of R86 that looks past the empty window. -/

theorem verdict_noMarker {W : Bytes} (hn : 0 < W.length) (hm : W.getD 0 0 ≠ 0xFF#8) : verdict W = .fail .noMarker := by
  rw [verdict_eq, if_neg (by omega), if_pos hm]

theorem verdict_wait_id {W : Bytes} (hm : W.getD 0 0 = 0xFF#8) (hn : W.length = 1) : verdict W = .wait .id := by
  rw [verdict_eq, if_neg (by omega), if_neg (by simpa using hm), if_pos hn]

theorem verdict_wait_len {W : Bytes} (hm : W.getD 0 0 = 0xFF#8) (hn : W.length = 2 ∨ W.length = 3) :
    verdict W = .wait .len := by
  rw [verdict_eq, if_neg (by omega), if_neg (by simpa using hm), if_neg (by omega), if_pos hn]

theorem verdict_lengthOversize {W : Bytes} (hm : W.getD 0 0 = 0xFF#8) (hn : 4 ≤ W.length) (hL : 1024 < frameLength W) :
    verdict W = .fail .lengthOversize := by
  rw [verdict_eq, if_neg (by omega), if_neg (by simpa using hm), if_neg (by omega), if_neg (by omega), if_pos hL]

theorem verdict_wait_data {W : Bytes} (hm : W.getD 0 0 = 0xFF#8) (hn : 4 ≤ W.length) (hL : frameLength W ≤ 1024)
    (hw : W.length < frameLength W + 4) : verdict W = .wait .data := by
  rw [verdict_eq, if_neg (by omega), if_neg (by simpa using hm), if_neg (by omega), if_neg (by omega),
    if_neg (by omega), if_pos hw]

theorem verdict_wait_cs {W : Bytes} (hm : W.getD 0 0 = 0xFF#8) (hL : frameLength W ≤ 1024)
    (hw : W.length = frameLength W + 4) : verdict W = .wait .cs := by
  rw [verdict_eq, if_neg (by omega), if_neg (by simpa using hm), if_neg (by omega), if_neg (by omega),
    if_neg (by omega), if_neg (by omega), if_pos hw]

theorem verdict_emit {W : Bytes} (hm : W.getD 0 0 = 0xFF#8) (hL : frameLength W ≤ 1024)
    (hw : frameLength W + 5 ≤ W.length) (hs : sumBytes ((W.take (frameLength W + 5)).drop 4) % 256 = 0) :
    verdict W = .emit (W.take (frameLength W + 5)) := by
  rw [verdict_eq, if_neg (by omega), if_neg (by simpa using hm), if_neg (by omega), if_neg (by omega),
    if_neg (by omega), if_neg (by omega), if_neg (by omega), if_pos ((checksumOk_iff _).2 hs)]

theorem verdict_checksumMismatch {W : Bytes} (hm : W.getD 0 0 = 0xFF#8) (hL : frameLength W ≤ 1024)
    (hw : frameLength W + 5 ≤ W.length) (hs : sumBytes ((W.take (frameLength W + 5)).drop 4) % 256 ≠ 0) :
    verdict W = .fail .checksumMismatch := by
  rw [verdict_eq, if_neg (by omega), if_neg (by simpa using hm), if_neg (by omega), if_neg (by omega),
    if_neg (by omega), if_neg (by omega), if_neg (by omega), if_neg fun h => hs ((checksumOk_iff _).1 h)]

/-- Everything a verdict can be, each with its whole condition. -/
theorem verdict_cases (W : Bytes) :
    (W = [] ∧ verdict W = .wait .pre) ∨
    (0 < W.length ∧ W.getD 0 0 ≠ 0xFF#8 ∧ verdict W = .fail .noMarker) ∨
    (W.getD 0 0 = 0xFF#8 ∧
      ((W.length = 1 ∧ verdict W = .wait .id) ∨
       ((W.length = 2 ∨ W.length = 3) ∧ verdict W = .wait .len) ∨
       (4 ≤ W.length ∧ 1024 < frameLength W ∧ verdict W = .fail .lengthOversize) ∨
       (4 ≤ W.length ∧ frameLength W ≤ 1024 ∧ W.length < frameLength W + 4 ∧ verdict W = .wait .data) ∨
       (frameLength W ≤ 1024 ∧ W.length = frameLength W + 4 ∧ verdict W = .wait .cs) ∨
       (frameLength W ≤ 1024 ∧ frameLength W + 5 ≤ W.length ∧
         sumBytes ((W.take (frameLength W + 5)).drop 4) % 256 = 0 ∧
         verdict W = .emit (W.take (frameLength W + 5))) ∨
       (frameLength W ≤ 1024 ∧ frameLength W + 5 ≤ W.length ∧
         sumBytes ((W.take (frameLength W + 5)).drop 4) % 256 ≠ 0 ∧ verdict W = .fail .checksumMismatch))) := by
  by_cases h0 : W.length = 0
  · have := List.length_eq_zero_iff.1 h0
    subst this
    exact .inl ⟨rfl, rfl⟩
  by_cases hm : W.getD 0 0 = 0xFF#8
  swap
  · exact .inr (.inl ⟨by omega, hm, verdict_noMarker (by omega) hm⟩)
  refine .inr (.inr ⟨hm, ?_⟩)
  by_cases h1 : W.length = 1
  · exact .inl ⟨h1, verdict_wait_id hm h1⟩
  refine .inr ?_
  by_cases h2 : W.length = 2 ∨ W.length = 3
  · exact .inl ⟨h2, verdict_wait_len hm h2⟩
  refine .inr ?_
  by_cases hL : 1024 < frameLength W
  · exact .inl ⟨by omega, hL, verdict_lengthOversize hm (by omega) hL⟩
  refine .inr ?_
  by_cases hd : W.length < frameLength W + 4
  · exact .inl ⟨by omega, by omega, hd, verdict_wait_data hm (by omega) (by omega) hd⟩
  refine .inr ?_
  by_cases hc : W.length = frameLength W + 4
  · exact .inl ⟨by omega, hc, verdict_wait_cs hm (by omega) hc⟩
  refine .inr ?_
  by_cases hs : sumBytes ((W.take (frameLength W + 5)).drop 4) % 256 = 0
  · exact .inl ⟨by omega, by omega, hs, verdict_emit hm (by omega) (by omega) hs⟩
  · exact .inr ⟨by omega, by omega, hs, verdict_checksumMismatch hm (by omega) (by omega) hs⟩

/-- The length field of a window does not change when bytes are appended behind it. -/
theorem frameLength_append {W : Bytes} (e : Bytes) (h : 4 ≤ W.length) : frameLength (W ++ e) = frameLength W := by
  have hg : ∀ k, k < W.length → (W ++ e).getD k 0 = W.getD k 0 := by
    intro k hk
    rw [List.getD_eq_getElem?_getD, List.getD_eq_getElem?_getD, List.getElem?_append_left hk]
  simp only [frameLength, byteAt]
  rw [hg 2 (by omega), hg 3 (by omega)]

/-- The empty window waits in PRE (R86 line 1). -/
@[simp] theorem verdict_nil : verdict [] = .wait .pre := rfl

/-- The window the loop leaves is what remains after dropping bytes from the front. -/
theorem rescan_window_suffix (W : Bytes) : (rescan W).window <:+ W := by
  induction W with
  | nil => exact List.suffix_refl _
  | cons b rest ih =>
    cases h : verdict (b :: rest) with
    | wait p => rw [rescan_of_wait h]
    | emit f => rw [rescan_of_emit h]; exact ih.trans (List.suffix_cons b rest)
    | fail r => rw [rescan_of_fail h]; exact ih.trans (List.suffix_cons b rest)

/-- The window the loop leaves waits. -/
theorem rescan_window_waits (W : Bytes) : ∃ p, verdict (rescan W).window = .wait p := by
  induction W with
  | nil => exact ⟨.pre, rfl⟩
  | cons b rest ih =>
    cases h : verdict (b :: rest) with
    | wait p => rw [rescan_of_wait h]; exact ⟨p, h⟩
    | emit f => rw [rescan_of_emit h]; exact ih
    | fail r => rw [rescan_of_fail h]; exact ih

/-- PUSH does one of two things: it completes, or the window was already full. -/
theorem execPush_cases (b : Byte) (s : State) :
    (s.window.length < Config.winCap ∧
      execPush b s = .next (deliver (rescan (s.window ++ [b])).frames (rescan (s.window ++ [b])).diags
        (s.setWindow (rescan (s.window ++ [b])).window))) ∨
    (Config.winCap ≤ s.window.length ∧ execPush b s = .fault .windowFull) := by
  unfold execPush
  split
  · next h => exact .inl ⟨h, rfl⟩
  · next h => exact .inr ⟨Nat.le_of_not_lt h, rfl⟩

/-! The captures of the byte-at-a-time form between operations: those of the views where these are valid. -/

/-- With the low length byte awaited, `len_phase` is 0. -/
theorem replayOf_lenHigh_low (freeHigh : Bool) (freeLength : Nat) {W : Bytes} (h : W.length = 2) :
    (replayOf freeHigh freeLength W).lenHigh = false := by simp [replayOf, lenPhaseOf, h]

/-- With the high length byte awaited, `len_phase` is 1. -/
theorem replayOf_lenHigh_high (freeHigh : Bool) (freeLength : Nat) {W : Bytes} (h : W.length = 3) :
    (replayOf freeHigh freeLength W).lenHigh = true := by simp [replayOf, lenPhaseOf, h]

/-- From the whole header on, `L` is the frame length. -/
theorem replayOf_length (freeHigh : Bool) (freeLength : Nat) {W : Bytes} (h : 4 ≤ W.length) :
    (replayOf freeHigh freeLength W).length = frameLength W := by simp [replayOf, h]

end Sys2Proof.Machine
end

