-- ==== Sys2Proof/Laws/PerInstr.lean ====
section
/-! SUPPORT. A statement about every operation as syntax: its encoding is a well-formed command. -/

namespace Sys2Proof

/-- The command of an operation is well formed: a WRITE.T's value has the type's width (R135). -/
def Laws.Encodes.Statement (i : Instr) : Prop := (encode i).wellFormed = true

theorem Laws.Encodes.push (b : Byte) : Laws.Encodes.Statement (.push b) := rfl
theorem Laws.Encodes.reinit : Laws.Encodes.Statement .reinit := rfl
theorem Laws.Encodes.widthU8 : Laws.Encodes.Statement .widthU8 := rfl
theorem Laws.Encodes.widthS8 : Laws.Encodes.Statement .widthS8 := rfl
theorem Laws.Encodes.widthU16 : Laws.Encodes.Statement .widthU16 := rfl
theorem Laws.Encodes.widthS16 : Laws.Encodes.Statement .widthS16 := rfl
theorem Laws.Encodes.widthU32 : Laws.Encodes.Statement .widthU32 := rfl
theorem Laws.Encodes.widthS32 : Laws.Encodes.Statement .widthS32 := rfl
theorem Laws.Encodes.widthU64 : Laws.Encodes.Statement .widthU64 := rfl
theorem Laws.Encodes.widthS64 : Laws.Encodes.Statement .widthS64 := rfl
theorem Laws.Encodes.widthFloat : Laws.Encodes.Statement .widthFloat := rfl
theorem Laws.Encodes.readU8 (offset : Offset) : Laws.Encodes.Statement (.readU8 offset) := rfl
theorem Laws.Encodes.readS8 (offset : Offset) : Laws.Encodes.Statement (.readS8 offset) := rfl
theorem Laws.Encodes.readU16 (offset : Offset) : Laws.Encodes.Statement (.readU16 offset) := rfl
theorem Laws.Encodes.readS16 (offset : Offset) : Laws.Encodes.Statement (.readS16 offset) := rfl
theorem Laws.Encodes.readU32 (offset : Offset) : Laws.Encodes.Statement (.readU32 offset) := rfl
theorem Laws.Encodes.readS32 (offset : Offset) : Laws.Encodes.Statement (.readS32 offset) := rfl
theorem Laws.Encodes.readU64 (offset : Offset) : Laws.Encodes.Statement (.readU64 offset) := rfl
theorem Laws.Encodes.readS64 (offset : Offset) : Laws.Encodes.Statement (.readS64 offset) := rfl
theorem Laws.Encodes.readFloat (offset : Offset) : Laws.Encodes.Statement (.readFloat offset) := rfl
theorem Laws.Encodes.writeU8 (offset : Offset) (wdata : BitVec 8) : Laws.Encodes.Statement (.writeU8 offset wdata) := rfl
theorem Laws.Encodes.writeS8 (offset : Offset) (wdata : BitVec 8) : Laws.Encodes.Statement (.writeS8 offset wdata) := rfl
theorem Laws.Encodes.writeU16 (offset : Offset) (wdata : BitVec 16) : Laws.Encodes.Statement (.writeU16 offset wdata) := rfl
theorem Laws.Encodes.writeS16 (offset : Offset) (wdata : BitVec 16) : Laws.Encodes.Statement (.writeS16 offset wdata) := rfl
theorem Laws.Encodes.writeU32 (offset : Offset) (wdata : BitVec 32) : Laws.Encodes.Statement (.writeU32 offset wdata) := rfl
theorem Laws.Encodes.writeS32 (offset : Offset) (wdata : BitVec 32) : Laws.Encodes.Statement (.writeS32 offset wdata) := rfl
theorem Laws.Encodes.writeU64 (offset : Offset) (wdata : BitVec 64) : Laws.Encodes.Statement (.writeU64 offset wdata) := rfl
theorem Laws.Encodes.writeS64 (offset : Offset) (wdata : BitVec 64) : Laws.Encodes.Statement (.writeS64 offset wdata) := rfl
theorem Laws.Encodes.writeFloat (offset : Offset) (wdata : BitVec 32) : Laws.Encodes.Statement (.writeFloat offset wdata) := rfl

end Sys2Proof
end

