-- ==== Sys2Proof/Laws/Step.lean ====
section
/-! SUPPORT. Everything one step can do, said once. -/

namespace Sys2Proof.Machine

/-- What the host's next request is, and the state the block acts in. -/
theorem fetch_nil {s : State} (h : s.pending = []) : fetch s = none := by simp [fetch, h]

theorem fetch_cons {s : State} {r : Request} {rest : List Request} (h : s.pending = r :: rest) :
    fetch s = some (r, s.setPending rest) := by simp [fetch, h]

/-- With nothing issued the block idles. -/
theorem step_of_idle {s : State} (h : s.pending = []) : step s = .next s := by simp only [step, fetch_nil h]

theorem step_of_reset {s : State} {rest : List Request} (h : s.pending = .powerReset :: rest) :
    step s = .next (powerReset (s.setPending rest)) := by simp only [step, fetch_cons h]

theorem step_of_present {s : State} {m : Memory} {rest : List Request} (h : s.pending = .present m :: rest) :
    step s = .next ((s.setPending rest).setBuffer m) := by simp only [step, fetch_cons h]

theorem step_of_illegalOp {s : State} {c : Command} {rest : List Request} (h : s.pending = .issue c :: rest)
    (hd : decode c = .illegalOp) : step s = reportFault .illegalOp (s.setPending rest) := by simp only [step, fetch_cons h, hd]

theorem step_of_illegalType {s : State} {c : Command} {rest : List Request} (h : s.pending = .issue c :: rest)
    (hd : decode c = .illegalType) : step s = reportFault .illegalType (s.setPending rest) := by simp only [step, fetch_cons h, hd]

theorem step_of_wdataWidth {s : State} {c : Command} {rest : List Request} (h : s.pending = .issue c :: rest)
    (hd : decode c = .wdataWidth) : step s = .refused .wdataWidth := by simp only [step, fetch_cons h, hd]

/-- A run whose first step answers a next state goes on from there. -/
theorem run_succ_of_next {s t : State} (k : Nat) (h : step s = .next t) :
    Host.Core.run Sys2Proof.core (k + 1) s = Host.Core.run Sys2Proof.core k t := by
  have general : ∀ (M : Host.Core) (a b : M.State), M.step a = .next b →
      Host.Core.run M (k + 1) a = Host.Core.run M k b := by
    intro M a b hab
    rw [Host.Core.run, hab]
  exact general Sys2Proof.core s t h

/-- Everything an operation can do when it answers a next state: PUSH, REINIT, a field-type operation that only returns, or a
WRITE.T that stores a run of bytes inside the buffer. -/
theorem exec_next_cases {i : Instr} {s t : State} (h : exec i s = .next t) :
    (∃ b, i = .push b ∧ s.window.length < Config.winCap ∧
      t = deliver (rescan (s.window ++ [b])).frames (rescan (s.window ++ [b])).diags
        (s.setWindow (rescan (s.window ++ [b])).window)) ∨
    (i = .reinit ∧ t = deliver [] [] (s.setWindow [])) ∨
    (∃ st r, t = s.respond (.fieldType st r)) ∨
    (∃ a bs, a + List.length bs ≤ s.buffer.size ∧
      t = (s.setBuffer (memWrite s.buffer a bs)).respond (.fieldType .ok .nothing)) := by
  have hw : ∀ T, widthField T s = .next t → ∃ st r, t = s.respond (.fieldType st r) := by
    intro T hT
    rw [widthField_next] at hT
    exact ⟨_, _, (Host.Outcome.next.inj hT).symm⟩
  have hr : ∀ T o, readField T o s = .next t → ∃ st r, t = s.respond (.fieldType st r) := by
    intro T o hT
    rcases readField_cases T o s with ⟨-, e⟩ | ⟨-, e⟩ <;> rw [e] at hT <;>
      exact ⟨_, _, (Host.Outcome.next.inj hT).symm⟩
  have hs : ∀ T o v, writeField T o v s = .next t → (∃ st r, t = s.respond (.fieldType st r)) ∨
      (∃ a bs, a + List.length bs ≤ s.buffer.size ∧
        t = (s.setBuffer (memWrite s.buffer a bs)).respond (.fieldType .ok .nothing)) := by
    intro T o v hT
    rcases writeField_cases T o v s with ⟨hin, e⟩ | ⟨-, e⟩ <;> rw [e] at hT
    · exact .inr ⟨_, _, by simpa using hin, (Host.Outcome.next.inj hT).symm⟩
    · exact .inl ⟨_, _, (Host.Outcome.next.inj hT).symm⟩
  cases i with
  | push b =>
    rcases execPush_cases b s with ⟨hl, e⟩ | ⟨-, e⟩
    · exact .inl ⟨b, rfl, hl, (Host.Outcome.next.inj (e.symm.trans h)).symm⟩
    · exact absurd (e.symm.trans h) (by simp)
  | reinit => exact .inr (.inl ⟨rfl, (Host.Outcome.next.inj h).symm⟩)
  | widthU8 | widthS8 | widthU16 | widthS16 | widthU32 | widthS32 | widthU64 | widthS64 | widthFloat =>
    exact .inr (.inr (.inl (hw _ h)))
  | readU8 o | readS8 o | readU16 o | readS16 o | readU32 o | readS32 o | readU64 o | readS64 o | readFloat o =>
    exact .inr (.inr (.inl (hr _ _ h)))
  | writeU8 o v | writeS8 o v | writeU16 o v | writeS16 o v | writeU32 o v | writeS32 o v | writeU64 o v
  | writeS64 o v | writeFloat o v => exact .inr (.inr (hs _ _ _ h))

/-- Everything a step can do when it answers a next state. -/
theorem step_next_cases {s t : State} (h : step s = .next t) :
    (s.pending = [] ∧ t = s) ∨ ∃ r rest, s.pending = r :: rest ∧
      ((r = .powerReset ∧ t = powerReset (s.setPending rest)) ∨
       (∃ m, r = .present m ∧ t = (s.setPending rest).setBuffer m) ∨
       (∃ c i, r = .issue c ∧ decode c = .op i ∧ exec i (s.setPending rest) = .next t) ∨
       (∃ c st, r = .issue c ∧ t = (s.setPending rest).respond (.fieldType st .nothing))) := by
  cases hp : s.pending with
  | nil =>
    rw [step_of_idle hp] at h
    exact .inl ⟨rfl, (Host.Outcome.next.inj h).symm⟩
  | cons r rest =>
    refine .inr ⟨r, rest, rfl, ?_⟩
    cases r with
    | powerReset =>
      rw [step_of_reset hp] at h
      exact .inl ⟨rfl, (Host.Outcome.next.inj h).symm⟩
    | present m =>
      rw [step_of_present hp] at h
      exact .inr (.inl ⟨m, rfl, (Host.Outcome.next.inj h).symm⟩)
    | issue c =>
      cases hd : decode c with
      | op i => exact .inr (.inr (.inl ⟨c, i, rfl, hd, by simpa only [step, fetch_cons hp, hd] using h⟩))
      | illegalOp =>
        rw [step_of_illegalOp hp hd] at h
        exact .inr (.inr (.inr ⟨c, _, rfl, (Host.Outcome.next.inj h).symm⟩))
      | illegalType =>
        rw [step_of_illegalType hp hd] at h
        exact .inr (.inr (.inr ⟨c, _, rfl, (Host.Outcome.next.inj h).symm⟩))
      | wdataWidth =>
        rw [step_of_wdataWidth hp hd] at h
        exact absurd h (by simp)

end Sys2Proof.Machine
end

