-- ==== Sys2Proof/Tests/Slice0.lean ====
section
/-! SUPPORT. Tests, each on the spec's own vectors (95_test_vectors.md) or on words written out from 30_encoding.md R74, and a
witness for the hypotheses of every statement. -/

namespace Sys2Proof.Tests

open Sys2Proof.Machine

/-! ### Small states -/

/-- A client buffer that holds `bs`, and nothing else. -/
def withBuffer (bs : Bytes) : State := { State.reset with buffer := memoryOf bs }

/-- A framer window, and nothing else. -/
def withWindow (W : Bytes) : State := { State.reset with window := W }

/-- Issued commands, and nothing else. -/
def withPending (p : List Request) : State := { State.reset with pending := p }

/-- The next state, or the reset state where there is none. -/
def after : Host.Outcome State Fault Refusal → State
  | .next t => t
  | _ => State.reset

/-- What an operation returns. -/
def returned (i : Instr) (s : State) : Option Response := (after (exec i s)).response

/-- The bytes of a client buffer. -/
def bytes (m : Memory) : Bytes := memRead m 0 m.size

/-- The buffer bytes an operation leaves, and what it returns. -/
def left (i : Instr) (s : State) : Bytes × Option Response :=
  (bytes (after (exec i s)).buffer, returned i s)

/-- The number the client takes from a READ.T. -/
def numberRead (T : FieldType) (offset : Offset) (bs : Bytes) : Option Number :=
  match returned (T.readInstr offset) (withBuffer bs) with
  | some (.fieldType .ok (.rdata v)) => some (T.number v)
  | _ => none

/-- OK with a value. -/
def ok (v : Value) : Option Response := some (.fieldType .ok (.rdata v))

/-- OutOfBounds. -/
def oob : Option Response := some (.fieldType .outOfBounds .nothing)

/-- OK with nothing. -/
def done : Option Response := some (.fieldType .ok .nothing)

/-- The buffer `X` of 95_test_vectors.md. -/
def bufX : Bytes :=
  [0x01, 0x80, 0xFF, 0x7F, 0x00, 0x00, 0x00, 0x80, 0xFF, 0xFF, 0xFF, 0xFF, 0xFF, 0xFF, 0xFF, 0xFF]

/-- The buffer `Z` of 95_test_vectors.md. -/
def bufZ : Bytes := [0, 0, 0, 0, 0, 0, 0, 0]

/-- The frame `f` of 95_test_vectors.md E1. -/
def frameF : Bytes := [0xFF, 0xD3, 0x04, 0x00, 0x00, 0x00, 0xC0, 0x3F, 0x01]

/-- The frame `M` of P4. -/
def frameM : Bytes :=
  [0xFF, 0x51, 0x13, 0x00, 0xC8, 0xFE, 0xFF, 0x44, 0x33, 0x22, 0x11, 0xFE,
   0xFF, 0xFF, 0xFF, 0xFF, 0xFF, 0xFF, 0xFF, 0x00, 0x00, 0x00, 0xC0, 0xDA]

/-! ### Well-formedness -/

/-- R135: a WRITE.T with a value of another width is ill formed, for each of the four widths; with its own width it is not. -/
theorem test_ill_formed_wdata :
    Command.wellFormed (.fieldType 0b100000 0 (.w16 0)) = false ∧
    Command.wellFormed (.fieldType 0b100011 0 (.w8 0)) = false ∧
    Command.wellFormed (.fieldType 0b101000 0 (.w64 0)) = false ∧
    Command.wellFormed (.fieldType 0b100111 0 (.w32 0)) = false ∧
    Command.wellFormed (.fieldType 0b101000 0 (.w32 0)) = true ∧
    Command.wellFormed (.fieldType 0b111111 0 (.w64 0)) = true := by decide

/-- The canonical form refuses a cell out of order, one past the end, and one with the unlisted byte. -/
theorem test_ill_formed_memory :
    ¬ Memory.wf { size := 4, cells := [(2, 1), (1, 1)] } ∧ ¬ Memory.wf { size := 4, cells := [(4, 1)] } ∧
    ¬ Memory.wf { size := 4, cells := [(2, 0)] } ∧ Memory.wf { size := 4, cells := [(1, 1), (3, 2)] } := by decide

/-! ### Decoding: words written out from R71, R72 and R74 -/

theorem test_decode_framer :
    decodeTableWord 16 0b010100101 = some (.push 0xA5) ∧ decodeTableWord 16 0b011111111 = some (.push 0xFF) ∧
    decodeTableWord 16 0b100000000 = some .reinit ∧ decodeTableWord 16 0b111111111 = some .reinit ∧
    decodeTableWord 16 0b1000000000 = none := by decide

theorem test_decode_width :
    [0b000000, 0b000001, 0b000010, 0b000011, 0b000100, 0b000101, 0b000110, 0b000111, 0b001000].map (decodeTableWord 8) =
      [some .widthU8, some .widthS8, some .widthU16, some .widthS16, some .widthU32, some .widthS32, some .widthU64,
       some .widthS64, some .widthFloat] := by decide

theorem test_decode_read :
    [0b010000, 0b010001, 0b010010, 0b010011, 0b010100, 0b010101, 0b010110, 0b010111, 0b011000].map (decodeTableWord 8) =
      [some (.readU8 0), some (.readS8 0), some (.readU16 0), some (.readS16 0), some (.readU32 0), some (.readS32 0),
       some (.readU64 0), some (.readS64 0), some (.readFloat 0)] := by decide

theorem test_decode_write :
    [0b100000, 0b100001, 0b100010, 0b100011, 0b100100, 0b100101, 0b100110, 0b100111, 0b101000].map (decodeTableWord 8) =
      [some (.writeU8 0 0), some (.writeS8 0 0), some (.writeU16 0 0), some (.writeS16 0 0), some (.writeU32 0 0),
       some (.writeS32 0 0), some (.writeU64 0 0), some (.writeS64 0 0), some (.writeFloat 0 0)] := by decide

/-- The operands that travel beside the word reach the operation. -/
theorem test_decode_operands :
    decode (.fieldType 0b010111 0xFFFFFFFF (.w8 3)) = .op (.readS64 0xFFFFFFFF) ∧
    decode (.fieldType 0b100011 7 (.w16 0xFFFE)) = .op (.writeS16 7 0xFFFE) ∧
    decode (.fieldType 0b100011 7 (.w32 0xFFFE)) = .wdataWidth := by decide

/-- F4: reserved words. -/
theorem test_decode_reserved :
    decode (.fieldType 0x09 0 (.w8 0)) = .illegalType ∧ decode (.fieldType 0x1F 0xFFFFFFFF (.w8 0)) = .illegalType ∧
    decode (.fieldType 0x2A 0 (.w8 0)) = .illegalType ∧ decode (.fieldType 0x30 0 (.w8 0)) = .illegalOp ∧
    decode (.fieldType 0x3F 0 (.w8 0)) = .illegalOp ∧ decodeTableWord 8 0x30 = none := by decide

/-! ### Steps -/

/-- A table word placed from reset is what the very next step runs: PUSH 0xFF (V15), WIDTH.U64 (F1). -/
theorem test_withFetchWord :
    (after (step (State.reset.withFetchWord 16 0x0FF))).window = [0xFF] ∧
    (after (step (State.reset.withFetchWord 8 0x06))).response = some (.fieldType .ok (.width 8)) := by decide

/-- F4: a reserved word returns its status and leaves the buffer as it was. -/
theorem test_reserved_step :
    let s := { withBuffer bufX with pending := [.issue (.fieldType 0x3F 0 (.w8 0))] }
    (after (step s)).response = some (.fieldType .illegalOp .nothing) ∧ bytes (after (step s)).buffer = bufX := by decide

/-- A reset between operations (R184, R186): the window empties, the buffer stays. -/
theorem test_power_reset :
    let s := { withBuffer bufZ with window := [0xFF, 0xD3], pending := [.powerReset] }
    (after (step s)).window = [] ∧ bytes (after (step s)).buffer = bufZ := by decide

/-! ### The framer -/

/-- V9: a frame nested in a frame: both from one PUSH, the outer first, and the window ends empty. -/
theorem test_push_nested :
    let t := after (exec (.push 0xE1) (withWindow [0xFF, 0x50, 0x05, 0x00, 0xFF, 0x20, 0x00, 0x00, 0x00]))
    t.response = some (.framer
      [[0xFF, 0x50, 0x05, 0x00, 0xFF, 0x20, 0x00, 0x00, 0x00, 0xE1], [0xFF, 0x20, 0x00, 0x00, 0x00]] []) ∧
    t.window = [] := by decide

/-- P4 step 1: the last byte of `M` emits it, reports five LengthOversize and leaves an eight-byte window in DATA. -/
theorem test_push_false_candidates :
    let t := after (exec (.push 0xDA) (withWindow (frameM.take 23)))
    t.frames = [frameM] ∧ t.diags = List.replicate 5 .lengthOversize ∧
    t.window = [0xFF, 0xFF, 0xFF, 0x00, 0x00, 0x00, 0xC0, 0xDA] ∧ phaseOf t.window = .data ∧
    frameIdOf t.window = some 0xFF ∧ frameLenOf t.window = some 255 ∧ dcountOf t.window = some 4 := by decide

/-- V14: REINIT in mid-frame. -/
theorem test_reinit :
    let t := after (exec .reinit (withWindow [0xFF, 0xD3, 0x04]))
    t.window = [] ∧ t.response = some (.framer [] []) ∧ phaseOf t.window = .pre := by decide

/-- V4, V7 and R62: verdicts: a false marker, a length of 1024 and of 1025, a zero length, a checksum that fails. -/
theorem test_verdicts :
    verdict [0xFF, 0xFF, 0xD3, 0x04] = .fail .lengthOversize ∧ verdict [0xFF, 0x33, 0x00, 0x04] = .wait .data ∧
    verdict [0xFF, 0x10, 0x01, 0x04] = .fail .lengthOversize ∧ verdict [0xFF, 0x20, 0x00, 0x00] = .wait .cs ∧
    verdict [0xFF, 0x20, 0x00, 0x00, 0x01] = .fail .checksumMismatch ∧ verdict frameF = .emit frameF ∧
    verdict [0x12] = .fail .noMarker := by decide

/-- V9 in the byte-at-a-time form of R89: the same frames, in the same order, and an empty buffer,
with the capture that is not valid at the start set. -/
theorem test_replay_nested :
    let r := replayStep^[20] (replayPush 0xE1 (replayOf true 0 [0xFF, 0x50, 0x05, 0x00, 0xFF, 0x20, 0x00, 0x00, 0x00]))
    r.frames = [[0xFF, 0x50, 0x05, 0x00, 0xFF, 0x20, 0x00, 0x00, 0x00, 0xE1], [0xFF, 0x20, 0x00, 0x00, 0x00]] ∧
    r.buf = [] ∧ r.phase = .pre := by decide

/-- R78 with V1, V9, V10: the frames built from an id and a payload. -/
theorem test_frameOf :
    frameOf 0xD3 [0x00, 0x00, 0xC0, 0x3F] = frameF ∧ frameOf 0x40 [0xFF, 0xFF] = [0xFF, 0x40, 0x02, 0x00, 0xFF, 0xFF, 0x02] ∧
    frameOf 0x20 [] = [0xFF, 0x20, 0x00, 0x00, 0x00] := by decide

/-! ### WIDTH.T (F1) -/

theorem test_width :
    [Instr.widthU8, .widthS8, .widthU16, .widthS16, .widthU32, .widthS32, .widthU64, .widthS64, .widthFloat].map
        (fun i => returned i State.reset) =
      [1, 1, 2, 2, 4, 4, 8, 8, 4].map fun n => some (.fieldType .ok (.width n)) := by decide

/-! ### READ.T (F2), at the last legal offset and past it -/

theorem test_readU8 :
    numberRead .u8 1 bufX = some (.int 128) ∧ returned (.readU8 15) (withBuffer bufX) = ok (.w8 255) ∧
    returned (.readU8 16) (withBuffer bufX) = oob := by decide

theorem test_readS8 :
    numberRead .s8 1 bufX = some (.int (-128)) ∧ numberRead .s8 2 bufX = some (.int (-1)) ∧
    returned (.readS8 16) (withBuffer bufX) = oob := by decide

theorem test_readU16 :
    numberRead .u16 0 bufX = some (.int 32769) ∧ numberRead .u16 2 bufX = some (.int 32767) ∧
    returned (.readU16 15) (withBuffer bufX) = oob := by decide

theorem test_readS16 :
    numberRead .s16 0 bufX = some (.int (-32767)) ∧ numberRead .s16 1 bufX = some (.int (-128)) ∧
    returned (.readS16 15) (withBuffer bufX) = oob := by decide

theorem test_readU32 :
    numberRead .u32 4 bufX = some (.int 2147483648) ∧ numberRead .u32 12 bufX = some (.int 4294967295) ∧
    returned (.readU32 0xFFFFFFFF) (withBuffer bufX) = oob := by decide

theorem test_readS32 :
    numberRead .s32 0 bufX = some (.int 2147450881) ∧ numberRead .s32 4 bufX = some (.int (-2147483648)) ∧
    returned (.readS32 14) (withBuffer bufX) = oob := by decide

theorem test_readU64 :
    numberRead .u64 1 bufX = some (.int 18410715276698976128) ∧
    numberRead .u64 8 bufX = some (.int 18446744073709551615) ∧ returned (.readU64 9) (withBuffer bufX) = oob := by decide

theorem test_readS64 :
    numberRead .s64 0 bufX = some (.int (-9223372034707324927)) ∧ numberRead .s64 4 bufX = some (.int (-2147483648)) ∧
    returned (.readS64 12) (withBuffer bufX) = oob := by decide

theorem test_readFloat :
    numberRead .float 0 bufX = some (.floatBits 0x7FFF8001) ∧ numberRead .float 4 frameF = some (.floatBits 0x3FC00000) ∧
    returned (.readFloat 14) (withBuffer bufX) = oob := by decide

/-! ### WRITE.T (F3) -/

theorem test_writeU8 :
    left (.writeU8 7 0x5A) (withBuffer bufZ) = ([0, 0, 0, 0, 0, 0, 0, 0x5A], done) ∧
    left (.writeU8 8 1) (withBuffer bufZ) = (bufZ, oob) := by decide

theorem test_writeS8 :
    FieldType.wdataOf .s8 (.int (-128)) = some (.w8 0x80) ∧
    left (.writeS8 3 0x80) (withBuffer bufZ) = ([0, 0, 0, 0x80, 0, 0, 0, 0], done) := by decide

theorem test_writeU16 :
    left (.writeU16 1 0xABCD) (withBuffer bufZ) = ([0, 0xCD, 0xAB, 0, 0, 0, 0, 0], done) ∧
    left (.writeU16 7 1) (withBuffer bufZ) = (bufZ, oob) := by decide

theorem test_writeS16 :
    FieldType.wdataOf .s16 (.int (-2)) = some (.w16 0xFFFE) ∧
    left (.writeS16 2 0xFFFE) (withBuffer bufZ) = ([0, 0, 0xFE, 0xFF, 0, 0, 0, 0], done) := by decide

theorem test_writeU32 :
    left (.writeU32 0 0x11223344) (withBuffer bufZ) = ([0x44, 0x33, 0x22, 0x11, 0, 0, 0, 0], done) ∧
    left (.writeU32 5 0) (withBuffer bufZ) = (bufZ, oob) := by decide

theorem test_writeS32 :
    FieldType.wdataOf .s32 (.int (-2147483648)) = some (.w32 0x80000000) ∧
    left (.writeS32 4 0x80000000) (withBuffer bufZ) = ([0, 0, 0, 0, 0, 0, 0, 0x80], done) := by decide

theorem test_writeU64 :
    left (.writeU64 0 0x0102030405060708) (withBuffer bufZ) = ([0x08, 0x07, 0x06, 0x05, 0x04, 0x03, 0x02, 0x01], done) ∧
    left (.writeU64 0 9007199254740993) (withBuffer bufZ) = ([0x01, 0, 0, 0, 0, 0, 0x20, 0], done) := by decide

theorem test_writeS64 :
    FieldType.wdataOf .s64 (.int (-9223372036854775808)) = some (.w64 0x8000000000000000) ∧
    left (.writeS64 0 0x8000000000000000) (withBuffer bufZ) = ([0, 0, 0, 0, 0, 0, 0, 0x80], done) := by decide

theorem test_writeFloat :
    left (.writeFloat 2 0x3DCCCCCD) (withBuffer bufZ) = ([0, 0, 0xCD, 0xCC, 0xCC, 0x3D, 0, 0], done) ∧
    left (.writeFloat 5 0) (withBuffer bufZ) = (bufZ, oob) := by decide

/-- F5: a write over part of an earlier one, and the zero bytes it clears. -/
theorem test_write_over_write :
    left (.writeU16 1 0xABCD) (withBuffer [0x44, 0x33, 0x22, 0x11, 0, 0, 0, 0]) =
      ([0x44, 0xCD, 0xAB, 0x11, 0, 0, 0, 0], done) ∧
    (after (exec (.writeU16 0 0) (withBuffer [0x44, 0x33]))).buffer.cells = [] := by decide

/-- R146: integers outside a type's range have no value. Nor has an integer as a Float: the model's choice (log entry 21). -/
theorem test_numbers_refused :
    FieldType.wdataOf .u8 (.int 256) = none ∧ FieldType.wdataOf .s8 (.int 128) = none ∧
    FieldType.wdataOf .u16 (.int (-1)) = none ∧ FieldType.wdataOf .float (.int 1) = none := by decide

/-! ### Witnesses: states and operands that meet the hypotheses of each statement, at the edges of each clause -/

/-- The longest window between operations: a header with `L = 1024` and the whole payload (V8). -/
def longWindow : Bytes := 0xFF :: 0x33 :: 0x00 :: 0x04 :: List.replicate 1024 0xAA

/-- A window of exactly `n` bytes. -/
def windowOf (n : Nat) : State := withWindow (List.replicate n 0xFF)

/-- A window of 1028 bytes has room, one of 1029 has none. -/
theorem test_witness_window_edge : (windowOf 1028).window.length < 1029 ∧ 1029 ≤ (windowOf 1029).window.length := by
  simp only [windowOf, withWindow, List.length_replicate]
  decide

theorem test_witness_quiescent_pre : QuiescentIn [] .pre := rfl

theorem test_witness_quiescent_id : QuiescentIn [0xFF] .id := ⟨rfl, rfl⟩

theorem test_witness_quiescent_len : QuiescentIn [0xFF, 0xD3] .len ∧ QuiescentIn [0xFF, 0xD3, 0x04] .len :=
  ⟨⟨.inl rfl, rfl⟩, ⟨.inr rfl, rfl⟩⟩

theorem test_witness_quiescent_data :
    QuiescentIn [0xFF, 0xD3, 0x04, 0x00] .data ∧ QuiescentIn (frameF.take 7) .data ∧
    QuiescentIn [0xFF, 0x33, 0x00, 0x04] .data :=
  ⟨⟨by decide, by decide, rfl, by decide⟩, ⟨by decide, by decide, rfl, by decide⟩, ⟨by decide, by decide, rfl, by decide⟩⟩

theorem test_witness_quiescent_cs : QuiescentIn (frameF.take 8) .cs ∧ QuiescentIn [0xFF, 0x20, 0x00, 0x00] .cs :=
  ⟨⟨by decide, rfl, by decide⟩, ⟨by decide, rfl, by decide⟩⟩

theorem test_witness_quiescent_long : QuiescentIn longWindow .cs := by
  have hL : frameLength longWindow = 1024 := rfl
  refine ⟨?_, rfl, Nat.le_of_eq hL⟩
  rw [hL, longWindow]
  simp only [List.length_cons, List.length_replicate]

theorem test_witness_PowerResetEmptiesOnlyTheWindow :
    (withPending [.powerReset, .issue (.framer 0)]).pending = .powerReset :: [.issue (.framer 0)] := rfl

theorem test_witness_HostMovesOtherThanOperations :
    State.reset.pending = [] ∧ (withPending [.present (memoryOf bufX)]).pending = .present (memoryOf bufX) :: [] ∧
    (withPending [.issue (.fieldType 0x28 0 (.w64 0))]).pending = .issue (.fieldType 0x28 0 (.w64 0)) :: [] ∧
    Command.wellFormed (.fieldType 0x28 0 (.w64 0)) = false := by decide

theorem test_witness_StepRunsTheDecodedOperation :
    (withPending [.issue (.framer 0x1FF)]).pending = .issue (.framer 0x1FF) :: [] ∧
    decode (.framer 0x1FF) = .op .reinit ∧ decode (.fieldType 0x28 9 (.w32 1)) = .op (.writeFloat 9 1) := by decide

theorem test_witness_DecodeAndEncodeAgree :
    decode (.framer 0x1A5) = .op .reinit ∧ decode (.framer 0x0A5) = .op (.push 0xA5) ∧
    decode (.fieldType 0x18 5 (.w64 7)) = .op (.readFloat 5) := by decide

theorem test_witness_DecodingIsTotal :
    Command.wellFormed (.fieldType 0x27 0 (.w64 0)) = true ∧ Command.wellFormed (.fieldType 0x2F 0 (.w8 0)) = true ∧
    Command.wellFormed (.framer 0x1FF) = true := by decide

theorem test_witness_ReservedWordsFault :
    (withPending [.issue (.fieldType 0x3F 0 (.w8 0))]).pending = .issue (.fieldType 0x3F 0 (.w8 0)) :: [] ∧
    (0x30#6).toNat / 16 = 3 ∧ (0x3F#6).toNat / 16 = 3 ∧ ((0x2F#6).toNat / 16 < 3 ∧ 9 ≤ (0x2F#6).toNat % 16) ∧
    (0x09#6).toNat / 16 < 3 ∧ 9 ≤ (0x09#6).toNat % 16 := by decide

theorem test_witness_CodesAreTheSpecs : 9 ≤ (9#4).toNat ∧ 9 ≤ (15#4).toNat := by decide

theorem test_witness_ReinitClearsTheWindow : (0x100#9).toNat / 256 = 1 ∧ (0x1FF#9).toNat / 256 = 1 := by decide

theorem test_witness_PushRunsTheLoop : State.reset.window.length < 1029 ∧ (windowOf 1028).window.length < 1029 :=
  ⟨by decide, test_witness_window_edge.1⟩

theorem test_witness_WindowNeverOverflows : Quiescent State.reset.window ∧ Quiescent (withWindow longWindow).window :=
  ⟨⟨.pre, rfl⟩, ⟨.cs, test_witness_quiescent_long⟩⟩

theorem test_witness_PushDropsAreBounded : State.reset.window.length < 1029 ∧ (windowOf 1028).window.length < 1029 :=
  test_witness_PushRunsTheLoop

theorem test_witness_QuiescentRowsAreWaitVerdicts : QuiescentIn longWindow .cs ∧ Quiescent longWindow ∧ Quiescent [] :=
  ⟨test_witness_quiescent_long, ⟨.cs, test_witness_quiescent_long⟩, ⟨.pre, rfl⟩⟩

theorem test_witness_ViewsOfTheWindow :
    Quiescent (frameF.take 2) ∧ (frameF.take 2).length = 2 ∧ Quiescent (frameF.take 3) ∧ (frameF.take 3).length = 3 ∧
    Quiescent (frameF.take 4) ∧ frameLenOf (frameF.take 4) = some 4 ∧ dcountOf (frameF.take 4) = some 0 :=
  ⟨⟨.len, test_witness_quiescent_len.1⟩, rfl, ⟨.len, test_witness_quiescent_len.2⟩, rfl, ⟨.data, test_witness_quiescent_data.1⟩,
    by decide, by decide⟩

theorem test_witness_LocalFailures :
    (withWindow (frameF.take 8)).window.length < 1029 ∧
    verdict ((withWindow []).window ++ [0x12]) = .fail .noMarker ∧
    verdict ((withWindow [0xFF, 0x10, 0x01]).window ++ [0x04]) = .fail .lengthOversize ∧
    verdict ((withWindow (frameF.take 8)).window ++ [0x02]) = .fail .checksumMismatch ∧
    verdict ((withWindow (frameF.take 8)).window ++ [0x01]) = .emit frameF := by decide

theorem test_witness_DecisivePrefix :
    verdict frameF = .emit frameF ∧ (∀ p, Verdict.emit frameF ≠ .wait p) ∧ verdict [0x12] = .fail .noMarker ∧
    verdict [0xFF, 0x10, 0x01, 0x04] = .fail .lengthOversize :=
  ⟨by decide, fun p => by simp, by decide, by decide⟩

/-- The rows of R98 at the edges of the length: 1025, 0, 1 and 1024; the last DATA byte; both checksums. -/
theorem test_witness_TransitionTable :
    (after (step (withPending [.issue (.framer 0x0FF)]))).window ≠ (withPending [.issue (.framer 0x0FF)]).window ∧
    (QuiescentIn [0xFF] .id ∧ QuiescentIn [0xFF, 0xD3] .len ∧ lenPhaseOf [0xFF, 0xD3] = some 0) ∧
    (QuiescentIn [0xFF, 0x10, 0x01] .len ∧ lenPhaseOf [0xFF, 0x10, 0x01] = some 1 ∧
      lenLoOf [0xFF, 0x10, 0x01] = some 0x01 ∧ 1024 < (0x01#8).toNat + 256 * (0x04#8).toNat ∧
      (0x00#8).toNat + 256 * (0x00#8).toNat = 0 ∧ 1 ≤ (0x01#8).toNat + 256 * (0x00#8).toNat ∧
      (0x00#8).toNat + 256 * (0x04#8).toNat ≤ 1024) ∧
    (QuiescentIn (frameF.take 6) .data ∧ (frameF.take 6).length + 1 < 4 + frameLength (frameF.take 6)) ∧
    (QuiescentIn (frameF.take 7) .data ∧ (frameF.take 7).length + 1 = 4 + frameLength (frameF.take 7)) ∧
    QuiescentIn (frameF.take 8) .cs ∧ (sumBytes ((frameF.take 8).drop 4) + (0x01#8).toNat) % 256 = 0 ∧
    (sumBytes ((frameF.take 8).drop 4) + (0x02#8).toNat) % 256 ≠ 0 :=
  ⟨by decide, ⟨test_witness_quiescent_id, test_witness_quiescent_len.1, rfl⟩,
    ⟨⟨.inr rfl, rfl⟩, rfl, rfl, by decide, by decide, by decide, by decide⟩,
    ⟨⟨by decide, by decide, rfl, by decide⟩, by decide⟩, ⟨test_witness_quiescent_data.2.1, by decide⟩,
    test_witness_quiescent_cs.1, by decide, by decide⟩

theorem test_witness_ZeroLengthFrame :
    (withWindow [0xFF, 0xFF, 0x00, 0x00]).window = [0xFF, 0xFF, 0x00, 0x00] ∧ (0x01 : Byte) ≠ 0x00 := by decide

theorem test_witness_EmittedFramesAreSound : (windowOf 1028).window.length < 1029 := test_witness_window_edge.1

theorem test_witness_ByteAtATimeFormAgrees :
    Quiescent (withWindow (frameF.take 8)).window ∧ Quiescent (withWindow [0xFF]).window :=
  ⟨⟨.cs, test_witness_quiescent_cs.1⟩, ⟨.id, test_witness_quiescent_id⟩⟩

theorem test_witness_StreamFramesAreComplete :
    State.reset.window = [] ∧ (withPending (pushes frameF ++ [.powerReset])).pending = pushes frameF ++ [.powerReset] := by
  decide

theorem test_witness_StreamWindowIsUndecidedSuffix :
    State.reset.window = [] ∧ (withPending (pushes [])).pending = pushes [] ++ [] := by decide

/-- A frame at position 2 of a stream with exactly 1029 bytes from there on. -/
theorem test_witness_NoFrameIsLost :
    let bs : Bytes := 0x12 :: 0xAB :: 0xFF :: 0x20 :: 0x00 :: 0x00 :: 0x00 :: List.replicate 1024 0x00
    frameAt bs 2 = some [0xFF, 0x20, 0x00, 0x00, 0x00] ∧ 2 + 1029 ≤ bs.length ∧
    (withPending (pushes bs)).pending = pushes bs ++ [] := by
  refine ⟨?_, ?_, (List.append_nil _).symm⟩
  · rw [frameAt, if_pos]
    · rfl
    · refine ⟨rfl, Nat.zero_le _, ?_, rfl⟩
      simp only [List.length_cons, List.length_replicate]
      exact Nat.le_of_ble_eq_true rfl
  · simp only [List.length_cons, List.length_replicate]
    decide

theorem test_witness_BuiltFrameIsEmittedOnItsLastByte :
    ([] : Bytes).length ≤ 1024 ∧ (List.replicate 1024 (0xAA : Byte)).length ≤ 1024 ∧
    (withPending (pushes (frameOf 0x20 []))).pending = pushes (frameOf 0x20 []) ++ [] ∧
    (withPending (pushes (frameOf 0x20 []))).window = [] := by
  exact ⟨by decide, Nat.le_of_eq List.length_replicate, by decide, by decide⟩

theorem test_witness_CleanStreamOfFrames :
    (∀ g ∈ [frameF, frameF], ValidFrame g ∧ ∀ k, 1 ≤ k → k < g.length → g.getD k 0 ≠ 0xFF#8) ∧
    (withPending (pushes [frameF, frameF].flatten)).pending = pushes [frameF, frameF].flatten ++ [] := by
  refine ⟨?_, by decide⟩
  have h : ValidFrame frameF ∧ ∀ k, k < frameF.length → 1 ≤ k → frameF.getD k 0 ≠ 0xFF#8 := by decide
  intro g hg
  have e : g = frameF := by simpa using hg
  subst e
  exact ⟨h.1, fun k h1 h2 => h.2 k h2 h1⟩

theorem test_witness_ResyncAfterGarbage :
    (∀ x ∈ ([0x12, 0x00, 0xAB] : Bytes), x ≠ 0xFF#8) ∧ ValidFrame frameF ∧
    (∀ k, k < frameF.length → 1 ≤ k → frameF.getD k 0 ≠ 0xFF#8) ∧
    (withPending (pushes ([0x12, 0x00, 0xAB] ++ frameF))).pending = pushes ([0x12, 0x00, 0xAB] ++ frameF) ++ [] := by
  decide

theorem test_witness_ChecksumByteIsUnique :
    ([] : Bytes).length ≤ 1024 ∧ (List.replicate 1024 (0xAA : Byte)).length ≤ 1024 :=
  ⟨by decide, Nat.le_of_eq List.length_replicate⟩

theorem test_witness_SingleByteChangeIsDetected :
    ValidFrame frameF ∧ (4 ≤ 4 ∧ 8 < frameF.length) ∧ frameF.getD 4 0 ≠ 0x01 ∧ frameF.getD 8 0 ≠ 0x02 := by decide

theorem test_witness_FramerLeavesTheRest :
    exec (.push 0x00) State.reset = .next (after (exec (.push 0x00) State.reset)) ∧
    exec .reinit State.reset = .next (after (exec .reinit State.reset)) := ⟨rfl, rfl⟩

/-! The READ.T and WRITE.T statements: the last legal offset, the first illegal one, and the largest offset. -/

theorem test_witness_ReadByteTypes :
    readByte? (memoryOf bufX) (15#32).toNat = some 0xFF ∧ (memoryOf bufX).size ≤ (16#32).toNat ∧
    (memoryOf bufX).size ≤ (0xFFFFFFFF#32).toNat := by decide

theorem test_witness_ReadHalfTypes :
    readByte? (memoryOf bufX) (14#32).toNat = some 0xFF ∧ readByte? (memoryOf bufX) ((14#32).toNat + 1) = some 0xFF ∧
    (memoryOf bufX).size < (15#32).toNat + 2 ∧ (memoryOf bufX).size < (0xFFFFFFFF#32).toNat + 2 := by decide

theorem test_witness_ReadWordTypes :
    (readByte? (memoryOf bufX) (4#32).toNat = some 0 ∧ readByte? (memoryOf bufX) ((4#32).toNat + 1) = some 0 ∧
      readByte? (memoryOf bufX) ((4#32).toNat + 2) = some 0 ∧
      readByte? (memoryOf bufX) ((4#32).toNat + 3) = some 0x80) ∧
    readByte? (memoryOf bufX) ((12#32).toNat + 3) = some 0xFF ∧ (memoryOf bufX).size < (13#32).toNat + 4 ∧
    (memoryOf bufX).size < (0xFFFFFFFF#32).toNat + 4 := by decide

theorem test_witness_ReadDoubleTypes :
    (readByte? (memoryOf bufX) (8#32).toNat = some 0xFF ∧ ∀ k, k < 8 → readByte? (memoryOf bufX) ((8#32).toNat + k) = some 0xFF) ∧
    (memoryOf bufX).size < (9#32).toNat + 8 ∧ (memoryOf bufX).size < (0xFFFFFFFF#32).toNat + 8 := by decide

theorem test_witness_ReadDependsOnItsBytesAlone :
    (memoryOf bufX).size = (memoryOf (0x77 :: bufX.tail)).size ∧
    ∀ i, i < FieldType.u64.width →
      readByte? (memoryOf bufX) ((8#32).toNat + i) = readByte? (memoryOf (0x77 :: bufX.tail)) ((8#32).toNat + i) := by decide

theorem test_witness_WriteByteTypes :
    ((memoryOf bufZ).wf ∧ (7#32).toNat < (memoryOf bufZ).size ∧ (memoryOf bufZ).size ≤ (8#32).toNat) ∧
    ((0 : Int) ≤ 0 ∧ (255 : Int) ≤ 255) ∧ (-128 : Int) ≤ -128 ∧ (127 : Int) ≤ 127 := by decide

theorem test_witness_WriteHalfTypes :
    ((memoryOf bufZ).wf ∧ (6#32).toNat + 2 ≤ (memoryOf bufZ).size ∧ (memoryOf bufZ).size < (7#32).toNat + 2) ∧
    ((0 : Int) ≤ 65535 ∧ (65535 : Int) ≤ 65535) ∧ (-32768 : Int) ≤ -32768 ∧ (-32768 : Int) ≤ 32767 := by decide

theorem test_witness_WriteWordTypes :
    ((memoryOf bufZ).wf ∧ (4#32).toNat + 4 ≤ (memoryOf bufZ).size ∧ (memoryOf bufZ).size < (5#32).toNat + 4) ∧
    ((0 : Int) ≤ 4294967295 ∧ (4294967295 : Int) < 2 ^ 32) ∧ -2 ^ 31 ≤ (-2147483648 : Int) ∧ (2147483647 : Int) < 2 ^ 31 := by
  decide

theorem test_witness_WriteDoubleTypes :
    ((memoryOf bufZ).wf ∧ (0#32).toNat + 8 ≤ (memoryOf bufZ).size ∧ (memoryOf bufZ).size < (1#32).toNat + 8) ∧
    ((0 : Int) ≤ 18446744073709551615 ∧ (18446744073709551615 : Int) < 2 ^ 64) ∧
    -2 ^ 63 ≤ (-9223372036854775808 : Int) ∧ (9223372036854775807 : Int) < 2 ^ 63 := by decide

theorem test_witness_ReadAndWriteFaultTogether :
    FieldType.u16.writeInstr 7 (.w16 1) = some (.writeU16 7 1) ∧ FieldType.float.writeInstr 4 (.w32 1) = some (.writeFloat 4 1) := by
  decide

theorem test_witness_ReadAfterWrite :
    (memoryOf bufZ).wf ∧ FieldType.s16.writeInstr 6 (.w16 0xFFFE) = some (.writeS16 6 0xFFFE) ∧
    (6#32).toNat + FieldType.s16.width ≤ (memoryOf bufZ).size ∧
    ((2#32).toNat + FieldType.u32.width ≤ (6#32).toNat ∨ (6#32).toNat + FieldType.s16.width ≤ (2#32).toNat) := by decide

theorem test_witness_OverlappingWrites :
    (memoryOf bufZ).wf ∧ FieldType.u32.writeInstr 4 (.w32 0x11223344) = some (.writeU32 4 0x11223344) ∧
    FieldType.u16.writeInstr 5 (.w16 0xABCD) = some (.writeU16 5 0xABCD) ∧
    (4#32).toNat + FieldType.u32.width ≤ (memoryOf bufZ).size ∧ (5#32).toNat + FieldType.u16.width ≤ (memoryOf bufZ).size := by
  decide

theorem test_witness_NarrowReadOfWiderWrite :
    (memoryOf bufZ).wf ∧ FieldType.u32.writeInstr 4 (.w32 0x11223344) = some (.writeU32 4 0x11223344) ∧
    (4#32).toNat + FieldType.u32.width ≤ (memoryOf bufZ).size ∧ (6#32).toNat = (4#32).toNat + 2 ∧
    2 + FieldType.u16.width ≤ FieldType.u32.width := by decide

theorem test_witness_WideReadJoinsItsHalves :
    FieldType.u64.width = FieldType.float.width + FieldType.float.width ∧
    (12#32).toNat = (8#32).toNat + FieldType.float.width ∧ (8#32).toNat + FieldType.u64.width ≤ (memoryOf bufX).size := by
  decide

theorem test_witness_WriteAndReinitAreIdempotent :
    (memoryOf bufZ).wf ∧ FieldType.s64.writeInstr 0 (.w64 5) = some (.writeS64 0 5) := by decide

theorem test_witness_NumbersAndValues :
    (Value.w32 0).bits = 8 * FieldType.float.width ∧ FieldType.wdataOf .s8 (.int (-1)) = some (.w8 0xFF) ∧
    FieldType.u8 ≠ .float := by decide

theorem test_witness_ReadsOnAnEmittedFrame :
    ValidFrame frameF ∧ (withBuffer frameF).buffer = memoryOf frameF ∧ 3 < frameLength frameF ∧
    frameF.length < (8#32).toNat + FieldType.u16.width := by decide

theorem test_witness_WidthAndReadChangeNothing :
    Instr.widthS64 = FieldType.s64.widthInstr ∧ Instr.readS64 3 = FieldType.s64.readInstr 3 := by decide

theorem test_witness_WriteChangesOnlyItsBytes :
    (memoryOf bufZ).wf ∧ FieldType.u64.writeInstr 0 (.w64 5) = some (.writeU64 0 5) ∧
    ((7 < (8#32).toNat ∨ (8#32).toNat + FieldType.u64.width ≤ 7) ∧ (0#32).toNat + FieldType.u64.width ≤ 8) := by decide

theorem test_witness_SubBlocksCommute :
    Instr.readU8 0 ≠ .reinit ∧ (windowOf 1028).window.length < 1029 :=
  ⟨by decide, test_witness_window_edge.1⟩

theorem test_witness_EveryOperationCompletes : (windowOf 1028).window.length < 1029 := test_witness_window_edge.1

theorem test_witness_EveryStepKeepsTheInvariant :
    Inv { withBuffer bufX with pending := [.issue (.framer 0x0FF)] } ∧
    step { withBuffer bufX with pending := [.issue (.framer 0x0FF)] } =
      .next (after (step { withBuffer bufX with pending := [.issue (.framer 0x0FF)] })) := by
  refine ⟨⟨⟨.pre, rfl⟩, by decide, ?_, ?_, ?_⟩, rfl⟩ <;> simp [withBuffer, State.reset]

theorem test_witness_NoStepFaults : Inv (withWindow longWindow) := by
  refine ⟨⟨.cs, test_witness_quiescent_long⟩, by decide, ?_, ?_, ?_⟩ <;> simp [withWindow, State.reset]

end Sys2Proof.Tests
end

section
/-! READ.T for every field type at once: its operation, its completion in bounds, and the number its value spells (R112). -/

namespace Sys2Proof.Machine

/-- READ.T is the shared read of the type (R112). -/
theorem exec_readInstr (T : FieldType) (o : Offset) (s : State) : exec (T.readInstr o) s = readField T o s := by
  cases T <;> rfl

/-- READ.T in bounds returns OK with the bytes read, as a value of the type (R112). -/
theorem exec_readInstr_of_le {T : FieldType} {o : Offset} {s : State} (h : o.toNat + T.width ≤ s.buffer.size) :
    exec (T.readInstr o) s =
      .next (s.respond (.fieldType .ok (.rdata (T.toValue (leNat (memRead s.buffer o.toNat T.width)))))) := by
  rw [exec_readInstr]
  rcases readField_cases T o s with ⟨-, hread⟩ | ⟨hout, -⟩
  · exact hread
  · omega

/-- The value a READ.T returns loses nothing of the bytes read: they are as many as the type is wide. -/
theorem toValue_memRead_uint (T : FieldType) (m : Memory) (a : Nat) :
    (T.toValue (leNat (memRead m a T.width))).uint = leNat (memRead m a T.width) := by
  have hlt := leNat_lt (memRead m a T.width)
  rw [memRead_length] at hlt
  rw [FieldType.toValue_uint, Nat.mod_eq_of_lt hlt]

/-- `le` of a run is the little-endian join of `le` of its two parts (R133). -/
theorem leNat_memRead_add (m : Memory) (a n k : Nat) :
    leNat (memRead m a (n + k)) = leNat (memRead m a n) + 256 ^ n * leNat (memRead m (a + n) k) := by
  rw [memRead_add, leNat_append, memRead_length]

/-- Settles O48: both halves are in bounds where the wide run is, no value loses a byte of its run, and `le` of the wide run is
the join of `le` of its halves. -/
theorem wideReadJoinsItsHalves : Obligations.WideReadJoinsItsHalves := by
  intro s T H o o' hwidth hoffset hin
  refine ⟨_, _, _, exec_readInstr_of_le hin, exec_readInstr_of_le (by omega), exec_readInstr_of_le (by omega), ?_⟩
  simp only [toValue_memRead_uint]
  rw [hwidth, hoffset, leNat_memRead_add]

end Sys2Proof.Machine
end

section
/-! The state and its views: reset and REINIT (R37), when each view of the window is valid and its value then (R22 to R26), and
the stop of PUSH (R21). -/

namespace Sys2Proof.Machine

/-! ### The views of the window -/

/-- What R27 says of the length field: where a window between operations holds it whole, its value is admitted and the window
does not reach past the checksum byte. -/
theorem Quiescent.header {W : Bytes} (h : Quiescent W) :
    W.length < 4 ∨ frameLength W ≤ 1024 ∧ W.length ≤ 4 + frameLength W := by
  obtain ⟨p, hrow⟩ := h
  cases p with
  | pre =>
    have hlen : W.length = 0 := hrow
    omega
  | id =>
    obtain ⟨hlen, -⟩ := hrow
    omega
  | len =>
    obtain ⟨hlen, -⟩ := hrow
    omega
  | data =>
    obtain ⟨-, hlen, -, hL⟩ := hrow
    omega
  | cs =>
    obtain ⟨hlen, -, hL⟩ := hrow
    omega

/-- The view `state` is LEN on two or three bytes (R22). -/
theorem phaseOf_eq_len_iff (W : Bytes) : phaseOf W = .len ↔ W.length = 2 ∨ W.length = 3 := by
  unfold phaseOf
  split_ifs <;> simp <;> omega

/-- The view `len_phase` is valid exactly in state LEN (R23). -/
theorem lenPhaseOf_isSome_iff (W : Bytes) : (lenPhaseOf W).isSome = true ↔ phaseOf W = .len := by
  rw [phaseOf_eq_len_iff]
  unfold lenPhaseOf
  split_ifs <;> simp <;> omega

/-- A byte of the window that is there is the one `getD` reads. -/
theorem getElem?_eq_some_getD {W : Bytes} {k : Nat} (h : k < W.length) : W[k]? = some (W.getD k 0) := by
  rw [List.getElem?_eq_getElem h, List.getD_eq_getElem _ _ h]

/-- The frame length is two bytes wide (R25). -/
theorem frameLength_lt (W : Bytes) : frameLength W < 2 ^ 16 := by
  have hlo := (W.getD 2 0).isLt
  have hhi := (W.getD 3 0).isLt
  simp only [frameLength, byteAt]
  omega

/-- The view `frame_len`, where it is valid, is the frame length without loss (R25). -/
theorem frameLenOf_eq_some {W : Bytes} {L : BitVec 16} (h : frameLenOf W = some L) :
    4 ≤ W.length ∧ L.toNat = frameLength W := by
  obtain ⟨h4, rfl⟩ : 4 ≤ W.length ∧ BitVec.ofNat 16 (frameLength W) = L := by simpa [frameLenOf] using h
  exact ⟨h4, by rw [BitVec.toNat_ofNat, Nat.mod_eq_of_lt (frameLength_lt W)]⟩

/-- The view `dcount`, where it is valid, counts the bytes behind the header, modulo its 11 bits (R26). -/
theorem dcountOf_eq_some {W : Bytes} {n : BitVec 11} (h : dcountOf W = some n) :
    4 ≤ W.length ∧ n.toNat = (W.length - 4) % 2 ^ 11 := by
  obtain ⟨h4, rfl⟩ : 4 ≤ W.length ∧ BitVec.ofNat 11 (W.length - 4) = n := by simpa [dcountOf] using h
  exact ⟨h4, BitVec.toNat_ofNat _ _⟩

/-- Settles O17: each view is valid by the window's length alone; R27 bounds the frame length by 1024, so `dcount` has room. -/
theorem viewsOfTheWindow : Obligations.ViewsOfTheWindow := by
  intro W hq
  refine ⟨lenPhaseOf_isSome_iff W, fun h => ?_, fun h => ?_,
    iff_of_eq (isSome_getElem? W 1), getElem?_eq_some_getD, iff_of_eq (isSome_getElem? W 2), getElem?_eq_some_getD,
    ?_, fun L hL => ?_, ?_, fun n hn => ?_⟩
  · simp [lenPhaseOf, h]
  · simp [lenPhaseOf, h]
  · simp [frameLenOf]
  · obtain ⟨h4, hval⟩ := frameLenOf_eq_some hL
    have hmax : frameLength W ≤ 1024 := by have := hq.header; omega
    exact ⟨hval, hval ▸ hmax⟩
  · simp [dcountOf]
  · obtain ⟨h4, hval⟩ := dcountOf_eq_some hn
    have hroom : W.length - 4 < 2 ^ 11 := by have := hq.header; omega
    rw [hval, Nat.mod_eq_of_lt hroom]
    omega

/-! ### Reset, REINIT and the stop of PUSH -/

/-- REINIT empties the window and delivers nothing (R94). -/
theorem exec_reinit (s : State) : exec .reinit s = .next (deliver [] [] (s.setWindow [])) := rfl

/-- Settles O1: the reset state, a later reset and REINIT each leave the empty window, whose view `state` is PRE. -/
theorem resetAndReinitLeaveEmptyWindow : Obligations.ResetAndReinitLeaveEmptyWindow :=
  ⟨⟨rfl, rfl, rfl⟩, fun s => ⟨powerReset_window s, rfl⟩, fun s => ⟨_, exec_reinit s, rfl, rfl, rfl⟩⟩

/-- A buffer of length 0 has no byte at any address (R42). -/
theorem readByte?_of_size_zero {m : Memory} (h : m.size = 0) (a : Nat) : readByte? m a = none := by
  simp [readByte?, h]

/-- Settles O2: the fields are those of the reset state, whose buffer has length 0 and so no byte. -/
theorem resetFieldsTheModelChose : Obligations.ResetFieldsTheModelChose :=
  ⟨rfl, rfl, readByte?_of_size_zero rfl, rfl, rfl, rfl⟩

/-- The operation PUSH is its meaning (R74). -/
theorem exec_push (b : Byte) (s : State) : exec (.push b) s = execPush b s := rfl

/-- Settles O14, by the two things PUSH can do: complete on a window with room, or stop on a full one. -/
theorem pushFaultsOnlyOnFullWindow : Obligations.PushFaultsOnlyOnFullWindow := by
  intro b s
  rw [exec_push, ← Config.winCap_eq]
  rcases execPush_cases b s with ⟨hroom, hpush⟩ | ⟨hfull, hpush⟩
  · simp [hpush, hroom]
  · simp [hpush, hfull]

/-- Settles O57: the empty window is quiescent in row PRE, the buffer is in canonical form, and the lists are empty. -/
theorem invariantHoldsAtReset : Obligations.InvariantHoldsAtReset where
  window := ⟨.pre, rfl⟩
  buffer := reset_buffer_wf
  presented := by simp [State.reset]
  frames := by simp [State.reset]
  returned := by simp [State.reset]

end Sys2Proof.Machine
end

section
/-! The frame of the framer operations: a delivery behind a new window is all that PUSH and REINIT do (R44, R56). -/

namespace Sys2Proof.Machine

/-- A framer operation that completes does one thing: it leaves some window and delivers some frames and events. -/
theorem exec_framer_next {i : Instr} {s t : State} (hi : i = .reinit ∨ ∃ b, i = .push b) (h : exec i s = .next t) :
    ∃ W fs ds, t = deliver fs ds (s.setWindow W) := by
  rcases hi with rfl | ⟨b, rfl⟩
  · rw [exec_reinit] at h
    exact ⟨_, _, _, (Host.Outcome.next.inj h).symm⟩
  · rw [exec_push] at h
    rcases execPush_cases b s with ⟨-, hpush⟩ | ⟨-, hpush⟩
    · exact ⟨_, _, _, (Host.Outcome.next.inj (hpush.symm.trans h)).symm⟩
    · exact absurd (hpush.symm.trans h) (by simp)

/-- Settles O33: the new window and the delivery touch neither the buffer nor the requests, and a delivery appends. -/
theorem framerLeavesTheRest : Obligations.FramerLeavesTheRest := by
  intro i s t hi h
  obtain ⟨W, fs, ds, rfl⟩ := exec_framer_next hi h
  have hbuffer : (deliver fs ds (s.setWindow W)).buffer = s.buffer := by simp
  have hpending : (deliver fs ds (s.setWindow W)).pending = s.pending := by simp
  exact ⟨hbuffer, fun a => by rw [hbuffer], hpending, List.prefix_append s.frames fs, List.prefix_append s.diags ds⟩

end Sys2Proof.Machine
end

section
/-! The command words (R71 to R75): their fields as numbers, what each kind of word decodes to, and that decoding inverts the
encoder. -/

namespace Sys2Proof

/-! ### The fields of a word, as numbers -/

theorem opField_toNat (word : BitVec 6) : (opField word).toNat = word.toNat / 16 := by
  have hword := word.isLt
  simp only [opField, BitVec.extractLsb'_toNat, Nat.shiftRight_eq_div_pow]
  omega

theorem typeField_toNat (word : BitVec 6) : (typeField word).toNat = word.toNat % 16 := by
  simp [typeField]

theorem reinitField_toNat (word : BitVec 9) : (reinitField word).toNat = word.toNat / 256 := by
  have hword := word.isLt
  simp only [reinitField, BitVec.extractLsb'_toNat, Nat.shiftRight_eq_div_pow]
  omega

theorem byteField_toNat (word : BitVec 9) : (byteField word).toNat = word.toNat % 256 := by
  simp [byteField]

/-! ### The FR words -/

/-- An FR word with `reinit = 1` is REINIT, whatever its byte (R72). -/
theorem decode_framer_of_reinit {word : BitVec 9} (h : reinitField word = 1) : decode (.framer word) = .op .reinit :=
  if_pos h

/-- An FR word with `reinit = 0` is PUSH of its byte (R72). -/
theorem decode_framer_of_not_reinit {word : BitVec 9} (h : reinitField word ≠ 1) :
    decode (.framer word) = .op (.push (byteField word)) :=
  if_neg h

/-- The `reinit` bit is clear exactly below 256 (R72). -/
theorem reinitField_ne_one_iff (word : BitVec 9) : reinitField word ≠ 1 ↔ word.toNat < 256 := by
  have hword := word.isLt
  rw [Ne, ← BitVec.toNat_inj, reinitField_toNat]
  show ¬ word.toNat / 256 = 1 ↔ _
  omega

/-- The word of PUSH decodes to it, with its byte (R72). -/
theorem decode_push_word (b : Byte) : decode (.framer (b.setWidth 9)) = .op (.push b) := by
  have hb := b.isLt
  have hnat : (b.setWidth 9).toNat = b.toNat := by rw [BitVec.toNat_setWidth]; omega
  have hbyte : byteField (b.setWidth 9) = b := by
    apply BitVec.eq_of_toNat_eq
    rw [byteField_toNat, hnat]
    omega
  rw [decode_framer_of_not_reinit ((reinitField_ne_one_iff _).2 (by omega)), hbyte]

/-- An FR word with `reinit = 0` is its byte, extended with a zero bit (R72). -/
theorem setWidth_byteField {word : BitVec 9} (h : reinitField word ≠ 1) : (byteField word).setWidth 9 = word := by
  have hword := (reinitField_ne_one_iff word).1 h
  apply BitVec.eq_of_toNat_eq
  rw [BitVec.toNat_setWidth, byteField_toNat]
  omega

/-! ### The FT words -/

/-- The codes 9 to 15 name no type (R68, R71). -/
theorem FieldType.ofCode_eq_none {c : BitVec 4} (h : 9 ≤ c.toNat) : FieldType.ofCode c = none := by
  revert c
  decide

/-- The type code of a type names it (R68). -/
@[simp] theorem FieldType.ofCode_code (T : FieldType) : FieldType.ofCode T.code = some T := by
  cases T <;> rfl

/-- A code that names a type is its code (R68). -/
theorem FieldType.code_of_ofCode {c : BitVec 4} {T : FieldType} (h : FieldType.ofCode c = some T) : T.code = c := by
  revert c T
  decide

/-- The FT word `op[5:4] type[3:0]` of an operation on a field type (R71). -/
def ftWord (op : BitVec 2) (T : FieldType) : BitVec 6 := op ++ T.code

@[simp] theorem opField_ftWord (op : BitVec 2) (T : FieldType) : opField (ftWord op T) = op :=
  (BitVec.extractLsb'_append_eq_of_le (by decide)).trans BitVec.extractLsb'_eq_self

@[simp] theorem typeField_ftWord (op : BitVec 2) (T : FieldType) : typeField (ftWord op T) = T.code :=
  (BitVec.extractLsb'_append_eq_of_add_le (by decide)).trans BitVec.extractLsb'_eq_self

/-- An FT word whose `type` field names a type is made of its two fields (R71). -/
theorem eq_ftWord {word : BitVec 6} {T : FieldType} (h : FieldType.ofCode (typeField word) = some T) :
    word = ftWord (opField word) T := by
  rw [ftWord, FieldType.code_of_ofCode h]
  exact (BitVec.extractLsb'_append_extractLsb' (w := 2) (len := 4) (x := word)).symm

/-- Every FT word is reserved by its `op`, reserved by its `type`, or a WIDTH, READ or WRITE word of some type (R73, R75). -/
theorem ftWord_cases (word : BitVec 6) :
    opField word = 3 ∨ (opField word ≠ 3 ∧ FieldType.ofCode (typeField word) = none) ∨
      ∃ T, word = ftWord 0 T ∨ word = ftWord 1 T ∨ word = ftWord 2 T := by
  by_cases hop : opField word = 3
  · exact .inl hop
  cases htype : FieldType.ofCode (typeField word) with
  | none => exact .inr (.inl ⟨hop, rfl⟩)
  | some T =>
    have hops : ∀ op : BitVec 2, op ≠ 3 → op = 0 ∨ op = 1 ∨ op = 2 := by decide
    have hword := eq_ftWord htype
    rcases hops _ hop with h | h | h <;> rw [h] at hword
    · exact .inr (.inr ⟨T, .inl hword⟩)
    · exact .inr (.inr ⟨T, .inr (.inl hword)⟩)
    · exact .inr (.inr ⟨T, .inr (.inr hword)⟩)

/-! One equation for each kind of FT word. -/

theorem decode_of_illegalOp {word : BitVec 6} (o : Offset) (v : Value) (h : opField word = 3) :
    decode (.fieldType word o v) = .illegalOp := by
  simp [decode, decodeFieldType, h]

theorem decode_of_illegalType {word : BitVec 6} (o : Offset) (v : Value) (h : opField word ≠ 3)
    (hc : FieldType.ofCode (typeField word) = none) : decode (.fieldType word o v) = .illegalType := by
  simp only [decode, decodeFieldType, if_neg h, hc]

theorem decode_width_word (T : FieldType) (o : Offset) (v : Value) :
    decode (.fieldType (ftWord 0 T) o v) = .op T.widthInstr := by
  simp [decode, decodeFieldType]

theorem decode_read_word (T : FieldType) (o : Offset) (v : Value) :
    decode (.fieldType (ftWord 1 T) o v) = .op (T.readInstr o) := by
  simp [decode, decodeFieldType]

theorem decode_write_word {T : FieldType} {o : Offset} {v : Value} {i : Instr} (h : T.writeInstr o v = some i) :
    decode (.fieldType (ftWord 2 T) o v) = .op i := by
  simp [decode, decodeFieldType, h]

theorem decode_write_word_of_none {T : FieldType} {o : Offset} {v : Value} (h : T.writeInstr o v = none) :
    decode (.fieldType (ftWord 2 T) o v) = .wdataWidth := by
  simp [decode, decodeFieldType, h]

/-! ### The encoder writes the same words -/

theorem encode_widthInstr (T : FieldType) : encode T.widthInstr = .fieldType (ftWord 0 T) 0 (.w8 0) := by
  cases T <;> rfl

theorem encode_readInstr (T : FieldType) (o : Offset) : encode (T.readInstr o) = .fieldType (ftWord 1 T) o (.w8 0) := by
  cases T <;> rfl

theorem encode_of_writeInstr {T : FieldType} {o : Offset} {v : Value} {i : Instr} (h : T.writeInstr o v = some i) :
    encode i = .fieldType (ftWord 2 T) o v := by
  unfold FieldType.writeInstr at h
  split at h <;> cases h <;> rfl

/-- Decoding gives back every encoded operation, with its operands (R74): PUSH carries its byte in the word, every other word is
fixed. -/
theorem decode_encode (i : Instr) : decode (encode i) = .op i := by
  cases i with
  | push b => exact decode_push_word b
  | _ => rfl

/-- An FR word that decodes to an operation is that operation's own word, but for REINIT's ignored byte (R72). -/
theorem encode_of_decode_framer {word : BitVec 9} {i : Instr} (h : decode (.framer word) = .op i) :
    i = .reinit ∨ encode i = .framer word := by
  by_cases hreinit : reinitField word = 1
  · rw [decode_framer_of_reinit hreinit] at h
    exact .inl (Decoded.op.inj h).symm
  · rw [decode_framer_of_not_reinit hreinit] at h
    obtain rfl := Decoded.op.inj h
    exact .inr (congrArg Command.framer (setWidth_byteField hreinit))

/-- An FT word that decodes to an operation is that operation's own word (R74). -/
theorem encode_of_decode_fieldType {word : BitVec 6} {o : Offset} {v : Value} {i : Instr}
    (h : decode (.fieldType word o v) = .op i) : ∃ o' v', encode i = .fieldType word o' v' := by
  rcases ftWord_cases word with hop | ⟨hop, htype⟩ | ⟨T, rfl | rfl | rfl⟩
  · rw [decode_of_illegalOp o v hop] at h
    cases h
  · rw [decode_of_illegalType o v hop htype] at h
    cases h
  · rw [decode_width_word] at h
    obtain rfl := Decoded.op.inj h
    exact ⟨_, _, encode_widthInstr T⟩
  · rw [decode_read_word] at h
    obtain rfl := Decoded.op.inj h
    exact ⟨_, _, encode_readInstr T o⟩
  · cases hwrite : T.writeInstr o v with
    | none =>
      rw [decode_write_word_of_none hwrite] at h
      cases h
    | some j =>
      rw [decode_write_word hwrite] at h
      obtain rfl := Decoded.op.inj h
      exact ⟨_, _, encode_of_writeInstr hwrite⟩

/-- Settles O7: the two directions are `decode_encode` and the two lemmas on a word that decodes to an operation. -/
theorem decodeAndEncodeAgree : Obligations.DecodeAndEncodeAgree :=
  ⟨decode_encode, fun _ _ => encode_of_decode_framer, fun _ _ _ _ => encode_of_decode_fieldType⟩

/-- Settles O6: five of the six are the words the encoder writes; the sixth is REINIT with its ignored byte all ones. -/
theorem sampleWordsDecode : Obligations.SampleWordsDecode :=
  ⟨decode_encode (.push 0xD3), decode_encode .reinit, decode_framer_of_reinit rfl, decode_encode .widthS16,
    decode_encode (.readU64 9), decode_encode (.writeFloat 4 0x3FC00000)⟩

/-! ### Well-formed commands -/

/-- WRITE.T takes a value of its type's width and no other (R135). -/
theorem FieldType.writeInstr_eq_none_iff (T : FieldType) (o : Offset) (v : Value) :
    T.writeInstr o v = none ↔ v.bits ≠ 8 * T.width := by
  cases T <;> cases v <;> simp [FieldType.writeInstr, Value.bits, FieldType.width]

/-- The WRITE word of a type asks for a value of the type's width (R135). -/
theorem wdataBitsOf_write_word (T : FieldType) : wdataBitsOf (ftWord 2 T) = some (8 * T.width) := by
  cases T <;> rfl

/-- A word that is no WRITE word asks for no width. -/
theorem wdataBitsOf_eq_none {word : BitVec 6} (h : opField word ≠ 2 ∨ FieldType.ofCode (typeField word) = none) :
    wdataBitsOf word = none := by
  revert word
  decide

theorem wellFormed_of_not_write {word : BitVec 6} (o : Offset) (v : Value)
    (h : opField word ≠ 2 ∨ FieldType.ofCode (typeField word) = none) :
    (Command.fieldType word o v).wellFormed = true := by
  simp only [Command.wellFormed, wdataBitsOf_eq_none h]

theorem wellFormed_write_word (T : FieldType) (o : Offset) (v : Value) :
    (Command.fieldType (ftWord 2 T) o v).wellFormed = (v.bits == 8 * T.width) := by
  simp only [Command.wellFormed, wdataBitsOf_write_word]

/-- An FR word is PUSH of its byte or REINIT; none is reserved (R73, R75). -/
theorem decode_framer_cases (word : BitVec 9) :
    (∃ b, decode (.framer word) = .op (.push b)) ∨ decode (.framer word) = .op .reinit := by
  by_cases hreinit : reinitField word = 1
  · exact .inr (decode_framer_of_reinit hreinit)
  · exact .inl ⟨_, decode_framer_of_not_reinit hreinit⟩

/-- A well-formed command is an operation or a reserved word; an ill-formed one is refused for its value's width (R73, R135). -/
theorem decode_cases (c : Command) :
    (c.wellFormed = true ∧ ((∃ i, decode c = .op i) ∨ decode c = .illegalOp ∨ decode c = .illegalType)) ∨
      (c.wellFormed = false ∧ decode c = .wdataWidth) := by
  cases c with
  | framer word =>
    rcases decode_framer_cases word with ⟨b, hpush⟩ | hreinit
    · exact .inl ⟨rfl, .inl ⟨_, hpush⟩⟩
    · exact .inl ⟨rfl, .inl ⟨_, hreinit⟩⟩
  | fieldType word o v =>
    rcases ftWord_cases word with hop | ⟨hop, htype⟩ | ⟨T, rfl | rfl | rfl⟩
    · exact .inl ⟨wellFormed_of_not_write o v (.inl (by simp [hop])), .inr (.inl (decode_of_illegalOp o v hop))⟩
    · exact .inl ⟨wellFormed_of_not_write o v (.inr htype), .inr (.inr (decode_of_illegalType o v hop htype))⟩
    · exact .inl ⟨wellFormed_of_not_write o v (.inl (by simp)), .inl ⟨_, decode_width_word T o v⟩⟩
    · exact .inl ⟨wellFormed_of_not_write o v (.inl (by simp)), .inl ⟨_, decode_read_word T o v⟩⟩
    · rw [wellFormed_write_word]
      cases hwrite : T.writeInstr o v with
      | none => exact .inr ⟨by simpa using (T.writeInstr_eq_none_iff o v).1 hwrite, decode_write_word_of_none hwrite⟩
      | some i =>
        have hbits : v.bits = 8 * T.width := not_not.1 (mt (T.writeInstr_eq_none_iff o v).2 (by simp [hwrite]))
        exact .inl ⟨by simpa using hbits, .inl ⟨i, decode_write_word hwrite⟩⟩

/-- Settles O8: on FR words by the `reinit` bit; on commands `decode_cases`, whose two cases exclude each other. -/
theorem decodingIsTotal : Obligations.DecodingIsTotal := by
  refine ⟨decode_framer_cases, fun c => ?_, fun c hwf => ?_⟩
  · rcases decode_cases c with ⟨hwf, ⟨i, hdec⟩ | hdec | hdec⟩ | ⟨hwf, hdec⟩ <;> simp [hwf, hdec]
  · rcases decode_cases c with ⟨-, hdec⟩ | ⟨hill, -⟩
    · exact hdec
    · rw [hwf] at hill
      cases hill

end Sys2Proof

/-! ### The step on a command -/

namespace Sys2Proof.Machine

/-- A command that decodes to an operation runs it, in the state without the command (R73). -/
theorem step_of_op {s : State} {c : Command} {rest : List Request} {i : Instr} (h : s.pending = .issue c :: rest)
    (hd : decode c = .op i) : step s = exec i (s.setPending rest) := by
  simp only [step, fetch_cons h, hd]

/-- Settles O5: it is the rule of the step for an operation. -/
theorem stepRunsTheDecodedOperation : Obligations.StepRunsTheDecodedOperation :=
  fun _ _ _ _ => step_of_op

/-- Settles O9: the numbers of the fields say which reserved kind a word is, and the step of either kind returns its status. -/
theorem reservedWordsFault : Obligations.ReservedWordsFault := by
  refine ⟨fun word => ?_, fun s rest word o v hp => ⟨fun hop => ?_, fun hop htype => ?_⟩⟩
  · rcases decode_framer_cases word with ⟨b, hpush⟩ | hreinit
    · exact ⟨_, hpush⟩
    · exact ⟨_, hreinit⟩
  · have hfield : opField word = 3 := BitVec.eq_of_toNat_eq (by rw [opField_toNat, hop]; rfl)
    exact step_of_illegalOp hp (decode_of_illegalOp o v hfield)
  · have hfield : opField word ≠ 3 := by
      intro h3
      rw [← opField_toNat, h3] at hop
      exact absurd hop (by decide)
    have hcode : FieldType.ofCode (typeField word) = none := FieldType.ofCode_eq_none (by rwa [typeField_toNat])
    exact step_of_illegalType hp (decode_of_illegalType o v hfield hcode)

end Sys2Proof.Machine
end

section
/-! Valid raw frames (R62 to R66, R78): the raw frame with a given checksum byte, and what the checksum detects. -/

namespace Sys2Proof.Machine

/-- The raw frame of an id and a payload with `c` in the place of the checksum (R62, R63). -/
def rawFrame (id : Byte) (payload : Bytes) (c : Byte) : Bytes :=
  0xFF#8 :: id :: BitVec.ofNat 8 (payload.length % 256) :: BitVec.ofNat 8 (payload.length / 256) :: (payload ++ [c])

/-- `FRAME(id, payload)` is the raw frame with the producer's checksum (R65, R78). -/
theorem frameOf_eq_rawFrame (id : Byte) (payload : Bytes) :
    frameOf id payload = rawFrame id payload (BitVec.ofNat 8 ((256 - sumBytes payload % 256) % 256)) := rfl

@[simp] theorem rawFrame_length (id : Byte) (payload : Bytes) (c : Byte) :
    (rawFrame id payload c).length = payload.length + 5 := by
  simp [rawFrame]

/-- The length field of a raw frame is the payload's length, where two bytes hold it (R63). -/
theorem frameLength_rawFrame (id : Byte) {payload : Bytes} (c : Byte) (h : payload.length < 2 ^ 16) :
    frameLength (rawFrame id payload c) = payload.length := by
  have hlo : byteAt (rawFrame id payload c) 2 = payload.length % 256 := by simp [byteAt, rawFrame]
  have hhi : byteAt (rawFrame id payload c) 3 = payload.length / 256 := by
    have hlt : payload.length / 256 < 256 := by omega
    simp [byteAt, rawFrame, Nat.mod_eq_of_lt hlt]
  rw [frameLength, hlo, hhi]
  omega

/-- The checksum condition of a frame is about everything behind its header (R65, R66). -/
theorem validFrame_iff (f : Bytes) :
    ValidFrame f ↔ f.getD 0 0 = 0xFF#8 ∧ frameLength f ≤ 1024 ∧ f.length = frameLength f + 5 ∧
      sumBytes (f.drop 4) % 256 = 0 := by
  have htake : f.length = frameLength f + 5 → (f.drop 4).take (frameLength f + 1) = f.drop 4 := fun hlen =>
    List.take_of_length_le (by rw [List.length_drop]; omega)
  constructor
  · rintro ⟨-, hm, hL, hlen, hsum⟩
    exact ⟨hm, hL, hlen, by rwa [htake hlen] at hsum⟩
  · rintro ⟨hm, hL, hlen, hsum⟩
    exact ⟨by omega, hm, hL, hlen, by rwa [htake hlen]⟩

/-- A raw frame of an admitted length is valid exactly when payload and checksum sum to 0 modulo 256 (R65, R66). -/
theorem validFrame_rawFrame_iff (id : Byte) {payload : Bytes} (c : Byte) (h : payload.length ≤ 1024) :
    ValidFrame (rawFrame id payload c) ↔ (sumBytes payload + c.toNat) % 256 = 0 := by
  have hlength := frameLength_rawFrame id c (Nat.lt_of_le_of_lt h (by decide))
  have hsum : sumBytes ((rawFrame id payload c).drop 4) = sumBytes payload + c.toNat := by
    simp [rawFrame, sumBytes]
  rw [validFrame_iff, hlength, rawFrame_length, hsum]
  exact ⟨fun ⟨_, _, _, hs⟩ => hs, fun hs => ⟨rfl, h, rfl, hs⟩⟩

/-- Settles O31: one byte completes a sum to 0 modulo 256, the one of the formula. -/
theorem checksumByteIsUnique : Obligations.ChecksumByteIsUnique := by
  intro id payload c hlen
  refine (validFrame_rawFrame_iff id c hlen).trans ?_
  have hc := c.isLt
  omega

/-- `FRAME(id, payload)` is a valid raw frame (R78). -/
theorem validFrame_frameOf (id : Byte) {payload : Bytes} (h : payload.length ≤ 1024) : ValidFrame (frameOf id payload) := by
  rw [frameOf_eq_rawFrame, validFrame_rawFrame_iff id _ h, BitVec.toNat_ofNat]
  omega

/-! ### Changing one byte -/

/-- Replacing a byte changes the sum by the difference of the two. -/
theorem sumBytes_set {bs : Bytes} {k : Nat} (x : Byte) (h : k < bs.length) :
    sumBytes (bs.set k x) + (bs.getD k 0).toNat = sumBytes bs + x.toNat := by
  induction bs generalizing k with
  | nil => simp at h
  | cons b rest ih =>
    cases k with
    | zero =>
      simp only [List.set_cons_zero, List.getD_cons_zero, sumBytes]
      omega
    | succ k =>
      have hrest := ih (Nat.lt_of_succ_lt_succ h)
      simp only [List.set_cons_succ, List.getD_cons_succ, sumBytes]
      omega

/-- Settles O32: both checksum conditions are about the sum behind the header, and the two sums differ by less than 256. -/
theorem singleByteChangeIsDetected : Obligations.SingleByteChangeIsDetected := by
  intro f k x hvalid h4 hk hne hvalid'
  obtain ⟨-, -, -, hsum⟩ := (validFrame_iff f).1 hvalid
  obtain ⟨-, -, -, hsum'⟩ := (validFrame_iff _).1 hvalid'
  have hchange := sumBytes_set (bs := f.drop 4) (k := k - 4) x (by rw [List.length_drop]; omega)
  have hbyte : (f.drop 4).getD (k - 4) 0 = f.getD k 0 := by
    rw [List.getD_eq_getElem?_getD, List.getElem?_drop, Nat.add_sub_cancel' h4, ← List.getD_eq_getElem?_getD]
  rw [hbyte] at hchange
  rw [List.drop_set, if_neg (by omega)] at hsum'
  have hold := (f.getD k 0).isLt
  have hnew := x.isLt
  have heq : (f.getD k 0).toNat = x.toNat := by omega
  exact hne (BitVec.eq_of_toNat_eq heq)

end Sys2Proof.Machine
end

section
/-! A frame pushed byte by byte (R43, R90, R104): what one PUSH request does, a run of pushes in which every window waits, and the
emission of a built frame on its last byte. -/

namespace Sys2Proof.Machine

/-- A requested PUSH on a window with room runs the loop on the window with the byte appended (R90). -/
theorem step_of_push {s : State} {b : Byte} {rest : List Request} (h : s.pending = .issue (.framer (b.setWidth 9)) :: rest)
    (hroom : s.window.length < 1029) :
    step s = .next (deliver (rescan (s.window ++ [b])).frames (rescan (s.window ++ [b])).diags
      ((s.setPending rest).setWindow (rescan (s.window ++ [b])).window)) := by
  rw [step_of_op h (decode_push_word b), exec_push]
  rcases execPush_cases b (s.setPending rest) with ⟨-, hpush⟩ | ⟨hfull, -⟩
  · exact hpush
  · rw [Config.winCap_eq, State.setPending_window] at hfull
    omega

/-- As long as every window on the way waits, a run of pushes appends its bytes and emits and delivers nothing. -/
theorem run_pushes_of_waits {bs : Bytes} {s : State} {rest : List Request} (hp : s.pending = pushes bs ++ rest)
    (hroom : s.window.length + bs.length ≤ 1029)
    (hwait : ∀ n, n ≤ bs.length → ∃ p, verdict (s.window ++ bs.take n) = .wait p) :
    ∃ t, (∀ k, Host.Core.run Sys2Proof.core (bs.length + k) s = Host.Core.run Sys2Proof.core k t) ∧
      t.window = s.window ++ bs ∧ t.pending = rest ∧ t.frames = s.frames ∧ t.diags = s.diags := by
  induction bs generalizing s with
  | nil => exact ⟨s, fun k => by rw [List.length_nil, Nat.zero_add], (List.append_nil _).symm, hp, rfl, rfl⟩
  | cons b bs ih =>
    rw [List.length_cons] at hroom
    obtain ⟨p, hfirst⟩ := hwait 1 (by simp)
    have hscan : rescan (s.window ++ [b]) = { window := s.window ++ [b], frames := [], diags := [] } :=
      rescan_of_wait (p := p) (by simpa using hfirst)
    have hstep := step_of_push (rest := pushes bs ++ rest) hp (by omega)
    rw [hscan] at hstep
    obtain ⟨t, hrun, hwindow, hpending, hframes, hdiags⟩ :=
      ih (s := deliver [] [] ((s.setPending (pushes bs ++ rest)).setWindow (s.window ++ [b]))) rfl
        (by rw [deliver_window, State.setWindow_window, List.length_append, List.length_singleton]; omega)
        (fun n hn => by
          obtain ⟨q, hq⟩ := hwait (n + 1) (by simpa using hn)
          exact ⟨q, by simpa using hq⟩)
    refine ⟨t, fun k => ?_, by simpa using hwindow, hpending, by simpa using hframes, by simpa using hdiags⟩
    rw [List.length_cons, Nat.add_right_comm, run_succ_of_next _ hstep, hrun]

/-- A valid frame cut short waits (R86). -/
theorem ValidFrame.verdict_take {f : Bytes} (hf : ValidFrame f) {n : Nat} (hn : n < f.length) :
    ∃ p, verdict (f.take n) = .wait p := by
  obtain ⟨hm, hL, hlen, -⟩ := (validFrame_iff f).1 hf
  have htake : (f.take n).length = n := by rw [List.length_take]; omega
  rcases Nat.eq_zero_or_pos n with rfl | hpos
  · exact ⟨.pre, rfl⟩
  have hmark : (f.take n).getD 0 0 = 0xFF#8 := by
    rw [List.getD_eq_getElem?_getD, List.getElem?_take_of_lt hpos, ← List.getD_eq_getElem?_getD, hm]
  by_cases h1 : n = 1
  · exact ⟨.id, verdict_wait_id hmark (by omega)⟩
  by_cases h4 : n < 4
  · exact ⟨.len, verdict_wait_len hmark (by omega)⟩
  have hlength : frameLength (f.take n) = frameLength f := by
    have happend := frameLength_append (f.drop n) (W := f.take n) (by omega)
    rwa [List.take_append_drop, eq_comm] at happend
  by_cases hdata : n < frameLength f + 4
  · exact ⟨.data, verdict_wait_data hmark (by omega) (by omega) (by omega)⟩
  · exact ⟨.cs, verdict_wait_cs hmark (by omega) (by omega)⟩

/-- A window that is a valid frame is emitted whole (R86 line 8). -/
theorem ValidFrame.verdict_eq_emit {f : Bytes} (hf : ValidFrame f) : verdict f = .emit f := by
  obtain ⟨hm, hL, hlen, hsum⟩ := (validFrame_iff f).1 hf
  have htake : f.take (frameLength f + 5) = f := List.take_of_length_le (by omega)
  have hemit := verdict_emit hm hL (by omega) (by rwa [htake])
  rwa [htake] at hemit

/-- The loop on a window that is a valid frame emits it first (R90). -/
theorem ValidFrame.rescan_frames {f : Bytes} (hf : ValidFrame f) : ∃ fs, (rescan f).frames = f :: fs := by
  cases f with
  | nil => exact absurd hf.1 (by decide)
  | cons b rest => exact ⟨_, by rw [rescan_of_emit hf.verdict_eq_emit]⟩

/-- A valid frame pushed from an empty window: nothing is emitted before its last byte, whose PUSH emits it first (R104). -/
theorem run_pushes_validFrame {f : Bytes} (hf : ValidFrame f) {s : State} {rest : List Request} (hempty : s.window = [])
    (hp : s.pending = pushes f ++ rest) :
    ∃ t fs ds, Host.Core.run Sys2Proof.core f.length s = .next t ∧ t.response = some (.framer (f :: fs) ds) ∧
      t.frames = s.frames ++ f :: fs ∧ t.pending = rest := by
  obtain ⟨-, hL, hlen, -⟩ := (validFrame_iff f).1 hf
  obtain ⟨init, last, rfl⟩ : ∃ init last, f = init ++ [last] :=
    ⟨f.dropLast, f.getLast (by rintro rfl; simp at hlen), (List.dropLast_append_getLast _).symm⟩
  rw [List.length_append, List.length_singleton] at hlen
  obtain ⟨t, hrun, hwindow, hpending, hframes, -⟩ :=
    run_pushes_of_waits (bs := init) (s := s) (rest := pushes [last] ++ rest) (by simpa [pushes] using hp)
      (by rw [hempty, List.length_nil]; omega)
      (fun n hn => by
        have hwait := hf.verdict_take (n := n) (by rw [List.length_append, List.length_singleton]; omega)
        rwa [List.take_append_of_le_length hn, ← List.nil_append (init.take n), ← hempty] at hwait)
  rw [hempty, List.nil_append] at hwindow
  obtain ⟨fs, hfirst⟩ := hf.rescan_frames
  have hstep := step_of_push (s := t) (b := last) (rest := rest) hpending (by rw [hwindow]; omega)
  rw [hwindow, hfirst] at hstep
  have hlast := (hrun 1).trans (run_succ_of_next 0 hstep)
  rw [List.length_append, List.length_singleton]
  exact ⟨_, fs, _, hlast, deliver_response _ _ _, congrArg (· ++ _) hframes, rfl⟩

/-- Settles O28: a built frame is a valid one, of five bytes beside its payload. -/
theorem builtFrameIsEmittedOnItsLastByte : Obligations.BuiltFrameIsEmittedOnItsLastByte := by
  intro s id payload rest hlen hempty hp
  have hvalid := validFrame_frameOf id hlen
  have hrun := run_pushes_validFrame hvalid hempty hp
  rw [frameOf_eq_rawFrame, rawFrame_length, ← frameOf_eq_rawFrame] at hrun
  exact ⟨hvalid, hrun⟩

end Sys2Proof.Machine
end

section
/-! The verdict (R86, R87): the waiting windows are the quiescent ones, the emitted frame is the valid one at the origin, and more
bytes do not change a verdict that drops. -/

namespace Sys2Proof.Machine

/-! ### Waiting windows -/

/-- The rows of R27 are the wait verdicts of R86. -/
theorem quiescentIn_iff (W : Bytes) (p : Phase) : QuiescentIn W p ↔ verdict W = .wait p := by
  constructor
  · intro hrow
    cases p with
    | pre => rw [List.length_eq_zero_iff.1 hrow, verdict_nil]
    | id => exact verdict_wait_id hrow.2 hrow.1
    | len => exact verdict_wait_len hrow.2 hrow.1
    | data =>
      obtain ⟨hn, hw, hm, hL⟩ := hrow
      exact verdict_wait_data hm hn hL (by omega)
    | cs =>
      obtain ⟨hw, hm, hL⟩ := hrow
      exact verdict_wait_cs hm hL (by omega)
  · intro hwait
    rcases verdict_cases W with ⟨rfl, hv⟩ | ⟨-, -, hv⟩ | ⟨hm, ⟨hn, hv⟩ | ⟨hn, hv⟩ | ⟨-, -, hv⟩ | ⟨hn, hL, hw, hv⟩ |
      ⟨hL, hw, hv⟩ | ⟨-, -, -, hv⟩ | ⟨-, -, -, hv⟩⟩ <;> cases hv.symm.trans hwait
    · exact rfl
    · exact ⟨hn, hm⟩
    · exact ⟨hn, hm⟩
    · exact ⟨hn, by omega, hm, hL⟩
    · exact ⟨by omega, hm, hL⟩

/-- A quiescent window is one that waits (R27). -/
theorem quiescent_iff (W : Bytes) : Quiescent W ↔ ∃ p, verdict W = .wait p :=
  exists_congr (quiescentIn_iff W)

/-- The view `state` names the row a window is in (R22, R27). -/
theorem QuiescentIn.phaseOf_eq {W : Bytes} {p : Phase} (h : QuiescentIn W p) : phaseOf W = p := by
  cases p with
  | pre => exact if_pos h
  | id =>
    obtain ⟨hn, -⟩ := h
    simp [phaseOf, hn]
  | len => exact (phaseOf_eq_len_iff W).2 h.1
  | data =>
    obtain ⟨hn, hw, -, -⟩ := h
    rw [phaseOf, if_neg (by omega), if_neg (by omega), if_neg (by omega), if_pos hw]
  | cs =>
    obtain ⟨hw, -, -⟩ := h
    rw [phaseOf, if_neg (by omega), if_neg (by omega), if_neg (by omega), if_neg (by omega)]

/-- A quiescent window leaves room for a byte (R92). -/
theorem Quiescent.length_le {W : Bytes} (h : Quiescent W) : W.length ≤ 1028 := by
  have hheader := h.header
  omega

/-- A quiescent window is empty or begins with the marker (R27). -/
theorem Quiescent.nil_or_marker {W : Bytes} (h : Quiescent W) : W = [] ∨ W.head? = some 0xFF#8 := by
  obtain ⟨p, hwait⟩ := (quiescent_iff W).1 h
  cases W with
  | nil => exact .inl rfl
  | cons b rest =>
    refine .inr (congrArg some ?_)
    by_contra hb
    exact absurd (hwait.symm.trans (verdict_noMarker (W := b :: rest) (by simp) hb)) nofun

/-- Settles O16: the rows are the wait verdicts, and each row fixes the window's length, hence the view. -/
theorem quiescentRowsAreWaitVerdicts : Obligations.QuiescentRowsAreWaitVerdicts :=
  ⟨quiescentIn_iff, fun _ _ hrow => hrow.phaseOf_eq, fun _ hq => ⟨hq.nil_or_marker, hq.length_le⟩⟩

/-! ### The decisive bytes (R87) -/

/-- Two windows that agree on the first `n` bytes agree on each of them. -/
theorem getD_of_take_prefix {W V : Bytes} {n k : Nat} (h : W.take n <+: V) (hn : n ≤ W.length) (hk : k < n) :
    V.getD k 0 = W.getD k 0 := by
  obtain ⟨e, rfl⟩ := h
  rw [List.getD_eq_getElem?_getD, List.getElem?_append_left (by rw [List.length_take]; omega),
    List.getElem?_take_of_lt hk, ← List.getD_eq_getElem?_getD]

/-- Two windows that agree on the header agree on the marker and the length field. -/
theorem header_of_take_prefix {W V : Bytes} {n : Nat} (h : W.take n <+: V) (hn : n ≤ W.length) (h4 : 4 ≤ n) :
    V.getD 0 0 = W.getD 0 0 ∧ frameLength V = frameLength W := by
  refine ⟨getD_of_take_prefix h hn (by omega), ?_⟩
  simp only [frameLength, byteAt]
  rw [getD_of_take_prefix h hn (by omega), getD_of_take_prefix h hn (by omega)]

/-- A window that begins with `n` bytes of another has them all. -/
theorem length_of_take_prefix {W V : Bytes} {n : Nat} (h : W.take n <+: V) (hn : n ≤ W.length) : n ≤ V.length := by
  have hlen := h.length_le
  rwa [List.length_take, Nat.min_eq_left hn] at hlen

theorem take_of_take_prefix {W V : Bytes} {n : Nat} (h : W.take n <+: V) (hn : n ≤ W.length) : V.take n = W.take n := by
  rw [List.prefix_iff_eq_take.1 h, List.length_take, Nat.min_eq_left hn]

/-- The four verdicts that drop, each with its whole condition (R86). -/
theorem verdict_drop_cases {W : Bytes} (h : ∀ p, verdict W ≠ .wait p) :
    (0 < W.length ∧ W.getD 0 0 ≠ 0xFF#8 ∧ verdict W = .fail .noMarker) ∨
    (W.getD 0 0 = 0xFF#8 ∧
      ((4 ≤ W.length ∧ 1024 < frameLength W ∧ verdict W = .fail .lengthOversize) ∨
       (frameLength W ≤ 1024 ∧ frameLength W + 5 ≤ W.length ∧
         sumBytes ((W.take (frameLength W + 5)).drop 4) % 256 = 0 ∧
         verdict W = .emit (W.take (frameLength W + 5))) ∨
       (frameLength W ≤ 1024 ∧ frameLength W + 5 ≤ W.length ∧
         sumBytes ((W.take (frameLength W + 5)).drop 4) % 256 ≠ 0 ∧ verdict W = .fail .checksumMismatch))) := by
  rcases verdict_cases W with ⟨-, hv⟩ | hnoMarker | ⟨hm, ⟨-, hv⟩ | ⟨-, hv⟩ | hoversize | ⟨-, -, -, hv⟩ | ⟨-, -, hv⟩ | hwhole⟩
  · exact absurd hv (h _)
  · exact .inl hnoMarker
  · exact absurd hv (h _)
  · exact absurd hv (h _)
  · exact .inr ⟨hm, .inl hoversize⟩
  · exact absurd hv (h _)
  · exact absurd hv (h _)
  · exact .inr ⟨hm, .inr hwhole⟩

/-- A verdict that drops is that of the decisive bytes, whatever follows it (R87). -/
theorem verdict_of_decisive_prefix {W : Bytes} {v : Verdict} (h : verdict W = v) (hv : ∀ p, v ≠ .wait p) :
    decisiveLength W v ≤ W.length ∧ ∀ V, W.take (decisiveLength W v) <+: V → verdict V = v := by
  subst h
  rcases verdict_drop_cases hv with ⟨hn, hm, he⟩ | ⟨hm, ⟨hn, hL, he⟩ | ⟨hL, hn, hs, he⟩ | ⟨hL, hn, hs, he⟩⟩ <;>
    rw [he] <;> refine ⟨hn, fun V hV => ?_⟩ <;> simp only [decisiveLength] at hV <;>
    have hlen := length_of_take_prefix hV hn
  · exact verdict_noMarker hlen (by rwa [getD_of_take_prefix hV hn Nat.zero_lt_one])
  · obtain ⟨hmark, hlength⟩ := header_of_take_prefix hV hn (Nat.le_refl 4)
    exact verdict_lengthOversize (hmark.trans hm) hlen (by omega)
  · obtain ⟨hmark, hlength⟩ := header_of_take_prefix hV hn (by omega)
    have hemit := verdict_emit (hmark.trans hm) (by omega) (by omega) (by rwa [hlength, take_of_take_prefix hV hn])
    rwa [hlength, take_of_take_prefix hV hn] at hemit
  · obtain ⟨hmark, hlength⟩ := header_of_take_prefix hV hn (by omega)
    exact verdict_checksumMismatch (hmark.trans hm) (by omega) (by omega) (by rwa [hlength, take_of_take_prefix hV hn])

/-- A verdict that drops survives every append (R87). -/
theorem verdict_append {W : Bytes} {v : Verdict} (e : Bytes) (h : verdict W = v) (hv : ∀ p, v ≠ .wait p) :
    verdict (W ++ e) = v :=
  (verdict_of_decisive_prefix h hv).2 _ ((List.take_prefix _ W).trans (List.prefix_append W e))

/-- Settles O20: both windows begin with the decisive bytes; the empty window shows that a wait can change. -/
theorem decisivePrefix : Obligations.DecisivePrefix := by
  refine ⟨fun W e v h hv => ?_, [], 0xFF, .pre, rfl, by decide⟩
  obtain ⟨hlen, hfixed⟩ := verdict_of_decisive_prefix h hv
  exact ⟨verdict_append e h hv, hlen, hfixed _ (List.prefix_refl _)⟩

/-! ### Emission -/

/-- The condition of an emission, and the frame it emits (R86 lines 5 to 8). -/
theorem verdict_emit_iff (W f : Bytes) : verdict W = .emit f ↔
    (W.getD 0 0 = 0xFF#8 ∧ frameLength W ≤ 1024 ∧ frameLength W + 5 ≤ W.length ∧
      sumBytes ((W.take (frameLength W + 5)).drop 4) % 256 = 0) ∧ f = W.take (frameLength W + 5) := by
  constructor
  · intro h
    rcases verdict_drop_cases (W := W) (by rw [h]; exact nofun) with
      ⟨-, -, he⟩ | ⟨hm, ⟨-, -, he⟩ | ⟨hL, hn, hs, he⟩ | ⟨-, -, -, he⟩⟩ <;> cases he.symm.trans h
    exact ⟨⟨hm, hL, hn, hs⟩, rfl⟩
  · rintro ⟨⟨hm, hL, hn, hs⟩, rfl⟩
    exact verdict_emit hm hL hn hs

/-- What is emitted is a valid raw frame that begins the window (R66, R86). -/
theorem prefix_and_valid_of_verdict_emit {W f : Bytes} (h : verdict W = .emit f) : f <+: W ∧ ValidFrame f := by
  obtain ⟨⟨hm, hL, hn, hs⟩, rfl⟩ := (verdict_emit_iff W f).1 h
  obtain ⟨hmark, hlength⟩ := header_of_take_prefix (List.prefix_refl (W.take (frameLength W + 5))) hn (by omega)
  refine ⟨List.take_prefix _ W, (validFrame_iff _).2 ⟨hmark.trans hm, by omega, ?_, hs⟩⟩
  rw [hlength, List.length_take, Nat.min_eq_left hn]

/-- Settles O18: a valid frame alone is emitted whole, and bytes behind it do not change that. -/
theorem emitMeansValidFrameAtOrigin : Obligations.EmitMeansValidFrameAtOrigin := by
  intro W f
  refine ⟨prefix_and_valid_of_verdict_emit, fun ⟨⟨e, hW⟩, hf⟩ => ?_⟩
  rw [← hW]
  exact verdict_append e hf.verdict_eq_emit nofun

end Sys2Proof.Machine
end

section
/-! The loop of PUSH (R90): one rule for the stop, one for the drop, and by induction on them what the loop emits, drops and
leaves. -/

namespace Sys2Proof.Machine

/-! ### One pass of the loop -/

/-- The frames that one verdict emits. -/
def Verdict.frames : Verdict → List Bytes
  | .emit f => [f]
  | _ => []

/-- A frame comes of its emission alone. -/
theorem Verdict.eq_emit_of_mem_frames {v : Verdict} {f : Bytes} (h : f ∈ v.frames) : v = .emit f := by
  cases v with
  | emit g => exact congrArg Verdict.emit (List.mem_singleton.1 h).symm
  | wait p | fail r => cases h

/-- The events that one verdict delivers (R99). -/
def Verdict.diags : Verdict → List Diag
  | .fail r => r.diags
  | _ => []

/-- One verdict emits or reports at most once (R93, R99). -/
theorem Verdict.frames_add_diags_le (v : Verdict) : v.frames.length + v.diags.length ≤ 1 := by
  cases v with
  | wait p => exact Nat.zero_le 1
  | emit f => exact Nat.le_refl 1
  | fail r => cases r <;> decide

/-- On a verdict that drops, the loop delivers what the verdict asks for and goes on over the rest (R90). -/
theorem rescan_of_drop {b : Byte} {rest : Bytes} {v : Verdict} (h : verdict (b :: rest) = v) (hv : ∀ p, v ≠ .wait p) :
    rescan (b :: rest) = { window := (rescan rest).window, frames := v.frames ++ (rescan rest).frames,
                           diags := v.diags ++ (rescan rest).diags } := by
  cases v with
  | wait p => exact absurd rfl (hv p)
  | emit f => exact rescan_of_emit h
  | fail r => exact rescan_of_fail h

/-- Induction along the loop: it stops on a window that waits, and drops the oldest byte of any other. -/
theorem rescan_induction {motive : Bytes → Prop} (wait : ∀ W p, verdict W = .wait p → motive W)
    (drop : ∀ b rest v, verdict (b :: rest) = v → (∀ p, v ≠ .wait p) → motive rest → motive (b :: rest)) (W : Bytes) :
    motive W := by
  induction W with
  | nil => exact wait [] .pre verdict_nil
  | cons b rest ih =>
    cases h : verdict (b :: rest) with
    | wait p => exact wait _ p h
    | emit f => exact drop b rest _ h nofun ih
    | fail r => exact drop b rest _ h nofun ih

/-! ### The whole loop -/

/-- A pass of the relation's loop, for any verdict that drops. -/
theorem PushLoop.drop {W W' : Bytes} {v : Verdict} {fs : List Bytes} {ds : List Diag} (h : verdict W = v)
    (hv : ∀ p, v ≠ .wait p) (hrest : PushLoop W.tail fs ds W') : PushLoop W (v.frames ++ fs) (v.diags ++ ds) W' := by
  cases v with
  | wait p => exact absurd rfl (hv p)
  | emit f => exact .emit h hrest
  | fail r =>
    cases r with
    | noMarker => exact .noMarker h hrest
    | lengthOversize => exact .lengthOversize h hrest
    | checksumMismatch => exact .checksumMismatch h hrest

/-- The model's loop is the loop of R90. -/
theorem pushLoop_rescan (W : Bytes) : PushLoop W (rescan W).frames (rescan W).diags (rescan W).window := by
  induction W using rescan_induction with
  | wait W p h =>
    rw [rescan_of_wait h]
    exact .wait h
  | drop b rest v h hv ih =>
    rw [rescan_of_drop h hv]
    exact .drop h hv ih

/-- The loop leaves a quiescent window (R27, R90). -/
theorem quiescent_rescan (W : Bytes) : Quiescent (rescan W).window :=
  (quiescent_iff _).2 (rescan_window_waits W)

/-- Each drop of the loop emits or reports at most once (R91, R93). -/
theorem rescan_drops (W : Bytes) : ∃ k ≤ W.length, (rescan W).window = W.drop k ∧
    (rescan W).frames.length + (rescan W).diags.length ≤ k := by
  induction W using rescan_induction with
  | wait W p h => exact ⟨0, by simp [rescan_of_wait h]⟩
  | drop b rest v h hv ih =>
    obtain ⟨k, hk, hwindow, hcount⟩ := ih
    have hone := v.frames_add_diags_le
    rw [rescan_of_drop h hv]
    refine ⟨k + 1, Nat.succ_le_succ hk, hwindow, ?_⟩
    simp only [List.length_append]
    omega

/-- What the loop emits are valid raw frames, each a contiguous piece of the window (R100). -/
theorem rescan_frames_sound (W : Bytes) : ∀ f ∈ (rescan W).frames, ValidFrame f ∧ f <:+: W := by
  induction W using rescan_induction with
  | wait W p h => simp [rescan_of_wait h]
  | drop b rest v h hv ih =>
    intro f hf
    rw [rescan_of_drop h hv] at hf
    rcases List.mem_append.1 hf with hf | hf
    · obtain rfl := Verdict.eq_emit_of_mem_frames hf
      obtain ⟨hprefix, hvalid⟩ := prefix_and_valid_of_verdict_emit h
      exact ⟨hvalid, hprefix.isInfix⟩
    · obtain ⟨hvalid, hinfix⟩ := ih f hf
      exact ⟨hvalid, hinfix.trans (List.suffix_cons b rest).isInfix⟩

/-! ### PUSH -/

/-- PUSH on a window with room delivers what the loop does on the window with the byte appended (R90). -/
theorem exec_push_of_room (b : Byte) {s : State} (h : s.window.length < 1029) :
    exec (.push b) s = .next (deliver (rescan (s.window ++ [b])).frames (rescan (s.window ++ [b])).diags
      (s.setWindow (rescan (s.window ++ [b])).window)) := by
  rw [exec_push]
  rcases execPush_cases b s with ⟨-, hpush⟩ | ⟨hfull, -⟩
  · exact hpush
  · rw [Config.winCap_eq] at hfull
    omega

/-- Settles O12: the model's loop is that of R90, and it stops on a quiescent window. -/
theorem pushRunsTheLoop : Obligations.PushRunsTheLoop :=
  ⟨decode_push_word, fun b _ hroom =>
    ⟨_, _, _, pushLoop_rescan _, quiescent_rescan _, exec_push_of_room b hroom⟩⟩

/-- Settles O13: a quiescent window has room, and the loop leaves a suffix that is quiescent again. -/
theorem windowNeverOverflows : Obligations.WindowNeverOverflows := by
  intro b s hq
  have hlen := hq.length_le
  have happend : (s.window ++ [b]).length = s.window.length + 1 := by simp
  refine ⟨hlen, by omega, _, exec_push_of_room b (by omega), ?_, (quiescent_rescan _).length_le⟩
  exact happend ▸ (rescan_window_suffix _).length_le

/-- Settles O15: the drops of the loop are bounded by the window with the byte appended. -/
theorem pushDropsAreBounded : Obligations.PushDropsAreBounded := by
  intro b s hroom
  obtain ⟨k, hk, hwindow, hcount⟩ := rescan_drops (s.window ++ [b])
  exact ⟨_, _, _, k, exec_push_of_room b hroom, deliver_response _ _ _, by simpa using hk, hwindow, hcount⟩

/-- Settles O23: PUSH returns what the loop emits. -/
theorem emittedFramesAreSound : Obligations.EmittedFramesAreSound :=
  fun b _ hroom => ⟨_, _, _, exec_push_of_room b hroom, deliver_response _ _ _, rescan_frames_sound _⟩

/-- Settles O11: bit 8 of the word selects REINIT, which delivers nothing. -/
theorem reinitClearsTheWindow : Obligations.ReinitClearsTheWindow := by
  refine ⟨fun word hword => decode_framer_of_reinit ?_, fun s => ?_⟩
  · exact BitVec.eq_of_toNat_eq ((reinitField_toNat word).trans hword)
  · simp [exec_reinit, deliver, State.setWindow, State.addFrames, State.addDiags, State.respond]

/-! ### The invariant of every step -/

/-- A delivery behind a quiescent window keeps the invariant, where the frames delivered are valid. -/
theorem Inv.deliver {s : State} (h : Inv s) {W : Bytes} {fs : List Bytes} (ds : List Diag) (hW : Quiescent W)
    (hfs : ∀ f ∈ fs, ValidFrame f) : Inv (deliver fs ds (s.setWindow W)) where
  window := hW
  buffer := h.buffer
  presented := h.presented
  frames := fun f hf => (List.mem_append.1 hf).elim (h.frames f) (hfs f)
  returned := by
    rintro r hr f hf
    cases hr
    exact hfs f hf

/-- A field-type operation's return keeps the invariant: it returns no frame. -/
theorem Inv.respond {s : State} (h : Inv s) (st : Status) (r : Result) : Inv (s.respond (.fieldType st r)) where
  window := h.window
  buffer := h.buffer
  presented := h.presented
  frames := h.frames
  returned := by
    rintro r hr f hf
    cases hr
    cases hf

/-- A buffer in canonical form on the port keeps the invariant. -/
theorem Inv.setBuffer {s : State} (h : Inv s) {m : Memory} (hm : m.wf) : Inv (s.setBuffer m) where
  window := h.window
  buffer := hm
  presented := h.presented
  frames := h.frames
  returned := h.returned

/-- A reset keeps the invariant: the empty window is quiescent. -/
theorem Inv.powerReset {s : State} (h : Inv s) : Inv (powerReset s) where
  window := ⟨.pre, rfl⟩
  buffer := h.buffer
  presented := h.presented
  frames := h.frames
  returned := nofun

/-- The invariant does not look at the requests, but for the buffers they present. -/
theorem Inv.setPending {s : State} (h : Inv s) {r : Request} {rest : List Request} (hp : s.pending = r :: rest) :
    Inv (s.setPending rest) where
  window := h.window
  buffer := h.buffer
  presented := fun m hm => h.presented m (hp ▸ List.mem_cons_of_mem r hm)
  frames := h.frames
  returned := h.returned

/-- Every operation keeps the invariant. -/
theorem Inv.exec {s t : State} {i : Instr} (h : Inv s) (he : exec i s = .next t) : Inv t := by
  rcases exec_next_cases he with ⟨b, -, -, rfl⟩ | ⟨-, rfl⟩ | ⟨st, r, rfl⟩ | ⟨a, bs, -, rfl⟩
  · exact h.deliver _ (quiescent_rescan _) fun f hf => (rescan_frames_sound _ f hf).1
  · exact h.deliver [] ⟨.pre, rfl⟩ nofun
  · exact h.respond st r
  · exact (h.setBuffer (memWrite_wf a bs h.buffer)).respond _ _

/-- Settles O56: each thing a step can do keeps the invariant. -/
theorem everyStepKeepsTheInvariant : Obligations.EveryStepKeepsTheInvariant := by
  intro s t h hstep
  rcases step_next_cases hstep with ⟨-, rfl⟩ | ⟨r, rest, hp, ⟨-, rfl⟩ | ⟨m, rfl, rfl⟩ | ⟨c, i, -, -, he⟩ | ⟨c, st, -, rfl⟩⟩
  · exact h
  · exact (h.setPending hp).powerReset
  · exact (h.setPending hp).setBuffer (h.presented m (by simp [hp]))
  · exact (h.setPending hp).exec he
  · exact (h.setPending hp).respond st _

end Sys2Proof.Machine
end

section
/-! The stream (R101 to R104, R109): a run of pushes is one loop over all its bytes, which drops exactly the positions before the
origin and emits the frames that stand there. -/

namespace Sys2Proof.Machine

/-! ### Pushes, one loop -/

/-- The loop may be run before more bytes come: it drops the same positions in the same order (R103). -/
theorem rescan_append (W e : Bytes) : rescan (W ++ e) =
    { window := (rescan ((rescan W).window ++ e)).window,
      frames := (rescan W).frames ++ (rescan ((rescan W).window ++ e)).frames,
      diags := (rescan W).diags ++ (rescan ((rescan W).window ++ e)).diags } := by
  induction W using rescan_induction with
  | wait W p h => simp [rescan_of_wait h]
  | drop b rest v h hv ih =>
    have happend : verdict (b :: (rest ++ e)) = v := verdict_append e h hv
    rw [List.cons_append, rescan_of_drop happend hv, rescan_of_drop h hv, ih]
    simp only [List.append_assoc]

/-- From a quiescent window, the pushes of `bs` do what the loop does on the window with all of `bs` appended. -/
theorem run_pushes {bs : Bytes} {s : State} {rest : List Request} (hq : Quiescent s.window)
    (hp : s.pending = pushes bs ++ rest) :
    ∃ t, (∀ k, Host.Core.run Sys2Proof.core (bs.length + k) s = Host.Core.run Sys2Proof.core k t) ∧
      t.window = (rescan (s.window ++ bs)).window ∧ t.frames = s.frames ++ (rescan (s.window ++ bs)).frames ∧
      t.diags = s.diags ++ (rescan (s.window ++ bs)).diags ∧ t.pending = rest ∧ t.buffer = s.buffer := by
  induction bs generalizing s with
  | nil =>
    obtain ⟨p, hwait⟩ := (quiescent_iff _).1 hq
    rw [List.append_nil, rescan_of_wait hwait]
    exact ⟨s, fun k => by rw [List.length_nil, Nat.zero_add], rfl, (List.append_nil _).symm, (List.append_nil _).symm, hp, rfl⟩
  | cons b bs ih =>
    have hstep := step_of_push (rest := pushes bs ++ rest) hp (Nat.lt_succ_of_le hq.length_le)
    have hsplit := rescan_append (s.window ++ [b]) bs
    rw [List.append_assoc, List.singleton_append] at hsplit
    obtain ⟨t, hrun, hwindow, hframes, hdiags, hpending, hbuffer⟩ := ih (quiescent_rescan (s.window ++ [b]))
      (s := deliver _ _ ((s.setPending (pushes bs ++ rest)).setWindow (rescan (s.window ++ [b])).window)) rfl
    refine ⟨t, fun k => ?_, ?_, ?_, ?_, hpending, hbuffer⟩
    · rw [List.length_cons, Nat.add_right_comm, run_succ_of_next _ hstep, hrun]
    · simpa [hsplit] using hwindow
    · simpa [hsplit] using hframes
    · simpa [hsplit] using hdiags

/-- A stream pushed from an empty window. -/
theorem run_stream {bs : Bytes} {s : State} {rest : List Request} (hempty : s.window = [])
    (hp : s.pending = pushes bs ++ rest) :
    ∃ t, (∀ k, Host.Core.run Sys2Proof.core (bs.length + k) s = Host.Core.run Sys2Proof.core k t) ∧
      t.window = (rescan bs).window ∧ t.frames = s.frames ++ (rescan bs).frames ∧
      t.diags = s.diags ++ (rescan bs).diags ∧ t.pending = rest ∧ t.buffer = s.buffer := by
  have hrun := run_pushes ((congrArg Quiescent hempty).mpr ⟨.pre, rfl⟩) hp
  rwa [hempty, List.nil_append] at hrun

/-! ### Positions of the stream -/

/-- The frame at a position does not depend on the bytes before it. -/
theorem frameAt_cons_succ (b : Byte) (rest : Bytes) (q : Nat) : frameAt (b :: rest) (q + 1) = frameAt rest q := by
  have hlength : lengthAt (b :: rest) (q + 1) = lengthAt rest q := by
    simp only [lengthAt, byteAt, Nat.add_right_comm q 1, List.getD_cons_succ]
  simp only [frameAt, hlength, Nat.add_right_comm q 1, List.getD_cons_succ, List.drop_succ_cons, List.length_cons,
    Nat.add_right_comm _ 1, Nat.add_le_add_iff_right]

/-- The deciding index moves with the position. -/
theorem decidingIndex_cons_succ (b : Byte) (rest : Bytes) (q : Nat) :
    decidingIndex (b :: rest) (q + 1) = decidingIndex rest q + 1 := by
  have hlength : lengthAt (b :: rest) (q + 1) = lengthAt rest q := by
    simp only [lengthAt, byteAt, Nat.add_right_comm q 1, List.getD_cons_succ]
  simp only [decidingIndex, hlength, List.getD_cons_succ]
  split_ifs <;> omega

/-- Position 0 holds a frame exactly when the verdict emits it (R86, R101). -/
theorem frameAt_zero_iff (W f : Bytes) : frameAt W 0 = some f ↔ verdict W = .emit f := by
  have hpayload : (W.take (frameLength W + 5)).drop 4 = (W.drop 4).take (frameLength W + 1) := List.drop_take
  have hlength : lengthAt W 0 = frameLength W := rfl
  rw [verdict_emit_iff, hpayload]
  simp [frameAt, hlength, and_assoc, eq_comm]

theorem toList_frameAt_zero (W : Bytes) : (frameAt W 0).toList = (verdict W).frames := by
  have hnone : (∀ f, verdict W ≠ .emit f) → frameAt W 0 = none := fun h =>
    Option.eq_none_iff_forall_ne_some.2 fun f hf => h f ((frameAt_zero_iff W f).1 hf)
  cases h : verdict W with
  | emit f => rw [(frameAt_zero_iff W f).2 h]; rfl
  | wait p => rw [hnone (by rw [h]; exact nofun)]; rfl
  | fail r => rw [hnone (by rw [h]; exact nofun)]; rfl

/-- A window without its high length byte has a length field of one byte. -/
theorem frameLength_of_short {W : Bytes} (h : W.length ≤ 3) : frameLength W < 256 := by
  have hlo := (W.getD 2 0).isLt
  have hhi : byteAt W 3 = 0 := by rw [byteAt, List.getD_eq_default _ _ h]; rfl
  rw [frameLength, hhi, byteAt]
  omega

/-- Position 0 is undecided exactly when the window waits (R86, R102). -/
theorem isOrigin_zero_iff (W : Bytes) : IsOrigin W 0 ↔ Quiescent W := by
  have hshort := @frameLength_of_short W
  have hlength : lengthAt W 0 = frameLength W := rfl
  have hindex : IsOrigin W 0 ↔ W.length ≤ decidingIndex W 0 := by simp [IsOrigin]
  rw [hindex, quiescent_iff, decidingIndex, hlength]
  rcases verdict_cases W with ⟨rfl, hv⟩ | ⟨hn, hm, hv⟩ | ⟨hm, hmarked⟩
  · exact iff_of_true (Nat.zero_le _) ⟨_, hv⟩
  · rw [if_pos hm, hv]
    exact iff_of_false (by omega) (by simp)
  · rw [if_neg (not_not.2 hm)]
    rcases hmarked with ⟨hn, hv⟩ | ⟨hn, hv⟩ | ⟨hn, hL, hv⟩ | ⟨hn, hL, hw, hv⟩ | ⟨hL, hw, hv⟩ | ⟨hL, hw, -, hv⟩ |
      ⟨hL, hw, -, hv⟩ <;> simp [hv] <;> split_ifs <;> omega

/-- Past a decided position the origin is that of the bytes behind it. -/
theorem IsOrigin.cons_succ {b : Byte} {rest : Bytes} {p : Nat} (h : IsOrigin rest p) (h0 : ¬ Quiescent (b :: rest)) :
    IsOrigin (b :: rest) (p + 1) := by
  obtain ⟨hp, hbefore⟩ := h
  refine ⟨by rw [decidingIndex_cons_succ]; exact Nat.succ_le_succ hp, fun q hq => ?_⟩
  cases q with
  | zero =>
    by_contra hle
    exact h0 ((isOrigin_zero_iff _).1 ⟨Nat.le_of_not_lt hle, nofun⟩)
  | succ q =>
    rw [decidingIndex_cons_succ]
    exact Nat.succ_lt_succ (hbefore q (Nat.lt_of_succ_lt_succ hq))

/-- The loop over a stream drops exactly the positions before the origin, and emits the frames that stand there, in order
(R101, R102). -/
theorem rescan_origin (W : Bytes) : ∃ p ≤ W.length, IsOrigin W p ∧ (rescan W).window = W.drop p ∧
    (rescan W).frames = (List.range p).filterMap (frameAt W) := by
  induction W using rescan_induction with
  | wait W p h =>
    exact ⟨0, Nat.zero_le _, (isOrigin_zero_iff W).2 ((quiescent_iff W).2 ⟨p, h⟩), by simp [rescan_of_wait h]⟩
  | drop b rest v h hv ih =>
    obtain ⟨p, hp, horigin, hwindow, hframes⟩ := ih
    have hdecided : ¬ Quiescent (b :: rest) := fun hq => by
      obtain ⟨q, hwait⟩ := (quiescent_iff _).1 hq
      exact hv q (h.symm.trans hwait)
    have hhead : (frameAt (b :: rest) 0).toList = v.frames := h ▸ toList_frameAt_zero _
    refine ⟨p + 1, Nat.succ_le_succ hp, horigin.cons_succ hdecided, ?_, ?_⟩
    · rw [rescan_of_drop h hv, hwindow, List.drop_succ_cons]
    · rw [rescan_of_drop h hv, hframes, ← hhead, List.range_succ_eq_map, List.filterMap_cons, List.filterMap_map]
      have htail : frameAt (b :: rest) ∘ Nat.succ = frameAt rest := funext (frameAt_cons_succ b rest)
      rw [htail]
      cases frameAt (b :: rest) 0 <;> rfl

/-- Settles O25: the run is one loop over the stream, and the loop emits the frames before the origin. -/
theorem streamFramesAreComplete : Obligations.StreamFramesAreComplete := by
  intro s bs rest hempty hp
  obtain ⟨t, hrun, -, hframes, -, hpending, hbuffer⟩ := run_stream hempty hp
  obtain ⟨p, -, horigin, -, hloop⟩ := rescan_origin bs
  exact ⟨t, p, hrun 0, horigin, hloop ▸ hframes, hpending, hbuffer⟩

/-- Settles O26: the run is one loop over the stream, and the loop drops what stands before the origin. -/
theorem streamWindowIsUndecidedSuffix : Obligations.StreamWindowIsUndecidedSuffix := by
  intro s bs rest hempty hp
  obtain ⟨t, hrun, hwindow, -⟩ := run_stream hempty hp
  obtain ⟨p, hle, horigin, hloop, -⟩ := rescan_origin bs
  exact ⟨t, p, hrun 0, horigin, hle, hwindow.trans hloop⟩

/-- A position is decided at most 1028 bytes after it (R102). -/
theorem decidingIndex_le (s : Bytes) (p : Nat) : decidingIndex s p ≤ p + 1028 := by
  unfold decidingIndex
  split_ifs <;> omega

/-- Settles O27: 1029 bytes from its start on, the frame's position stands before the origin. -/
theorem noFrameIsLost : Obligations.NoFrameIsLost := by
  intro s bs rest p f hempty hp hframe hlen
  obtain ⟨t, hrun, -, hframes, -⟩ := run_stream hempty hp
  obtain ⟨q, -, ⟨hundecided, -⟩, -, hloop⟩ := rescan_origin bs
  have hbefore : p < q := by
    have hq := decidingIndex_le bs q
    omega
  exact ⟨t, _, hrun 0, hframes, hloop ▸ List.mem_filterMap.2 ⟨p, List.mem_range.2 hbefore, hframe⟩⟩

/-! ### Garbage and clean frames -/

/-- The loop drops bytes that are no marker, and nothing comes of them (R88, R99). -/
theorem rescan_append_of_no_marker {g : Bytes} (h : ∀ x ∈ g, x ≠ 0xFF#8) (W : Bytes) : rescan (g ++ W) = rescan W := by
  induction g with
  | nil => rfl
  | cons b g ih =>
    have hdrop : verdict (b :: (g ++ W)) = .fail .noMarker := verdict_noMarker (by simp) (h b List.mem_cons_self)
    rw [List.cons_append, rescan_of_drop hdrop nofun, ih fun x hx => h x (List.mem_cons_of_mem b hx)]
    rfl

/-- No byte of the frame behind its own marker is a marker. -/
def NoInteriorMarker (f : Bytes) : Prop := ∀ k, 1 ≤ k → k < f.length → f.getD k 0 ≠ 0xFF#8

theorem NoInteriorMarker.tail {b : Byte} {rest : Bytes} (h : NoInteriorMarker (b :: rest)) : ∀ x ∈ rest, x ≠ 0xFF#8 := by
  intro x hx
  obtain ⟨k, hk, rfl⟩ := List.mem_iff_getElem.1 hx
  have hne := h (k + 1) (Nat.le_add_left 1 k) (Nat.succ_lt_succ hk)
  rwa [List.getD_cons_succ, List.getD_eq_getElem _ _ hk] at hne

/-- A clean frame is emitted, and the loop goes on behind it (R109). -/
theorem rescan_clean_append {f : Bytes} (hf : ValidFrame f) (hclean : NoInteriorMarker f) (W : Bytes) :
    rescan (f ++ W) = { window := (rescan W).window, frames := f :: (rescan W).frames, diags := (rescan W).diags } := by
  cases f with
  | nil => exact absurd hf.1 (by decide)
  | cons b rest =>
    have hemit : verdict (b :: (rest ++ W)) = .emit (b :: rest) := verdict_append W hf.verdict_eq_emit nofun
    rw [List.cons_append, rescan_of_emit hemit, rescan_append_of_no_marker hclean.tail]

/-- The loop over clean frames emits each of them and leaves nothing (R109). -/
theorem rescan_flatten {fl : List Bytes} (h : ∀ f ∈ fl, ValidFrame f ∧ NoInteriorMarker f) :
    rescan fl.flatten = { window := [], frames := fl, diags := [] } := by
  induction fl with
  | nil => rfl
  | cons f fl ih =>
    obtain ⟨hf, hclean⟩ := h f List.mem_cons_self
    rw [List.flatten_cons, rescan_clean_append hf hclean, ih fun g hg => h g (List.mem_cons_of_mem f hg)]

/-- Settles O29: the run is one loop over the frames. -/
theorem cleanStreamOfFrames : Obligations.CleanStreamOfFrames := by
  intro s fl rest hclean hempty hp
  obtain ⟨t, hrun, hwindow, hframes, hdiags, -⟩ := run_stream hempty hp
  rw [rescan_flatten hclean] at hwindow hframes hdiags
  exact ⟨t, hrun 0, hwindow, by rw [hwindow]; rfl, hframes, hdiags.trans (List.append_nil _)⟩

/-- Settles O30: the loop has dropped the garbage and waits on the frame cut short; the last byte completes it. -/
theorem resyncAfterGarbage : Obligations.ResyncAfterGarbage := by
  intro s garbage f rest hgarbage hf hclean hempty hp
  obtain ⟨init, last, rfl⟩ : ∃ init last, f = init ++ [last] :=
    ⟨f.dropLast, f.getLast (by rintro rfl; exact absurd hf.1 (by decide)), (List.dropLast_append_getLast _).symm⟩
  obtain ⟨p, hwait⟩ : ∃ p, verdict init = .wait p := by
    simpa using hf.verdict_take (n := init.length) (by simp)
  have hbefore : rescan (garbage ++ init) = { window := init, frames := [], diags := [] } := by
    rw [rescan_append_of_no_marker hgarbage, rescan_of_wait hwait]
  have hlast : rescan (init ++ [last]) = { window := [], frames := [init ++ [last]], diags := [] } := by
    have hone := rescan_clean_append hf hclean []
    rwa [List.append_nil] at hone
  obtain ⟨t, hrun, hwindow, hframes, hdiags, hpending, -⟩ :=
    run_stream (bs := garbage ++ init) (rest := pushes [last] ++ rest) hempty (by simpa [pushes] using hp)
  rw [hbefore] at hwindow hframes hdiags
  have hroom := ((quiescent_iff init).2 ⟨p, hwait⟩).length_le
  have hstep := step_of_push (s := t) (b := last) (rest := rest) hpending (by rw [hwindow]; exact Nat.lt_succ_of_le hroom)
  rw [hwindow, hlast] at hstep
  have hend := (hrun 1).trans (run_succ_of_next 0 hstep)
  rw [List.length_append, Nat.add_assoc] at hend
  rw [List.length_append, List.length_singleton]
  exact ⟨_, hend, congrArg (· ++ [init ++ [last]]) (hframes.trans (List.append_nil _)), rfl, rfl,
    (List.append_nil _).trans (hdiags.trans (List.append_nil _))⟩

end Sys2Proof.Machine
end

section
/-! The transitions of `state` (R98): the verdict on a quiescent window with one more byte, row by row, and what PUSH does with
it. -/

namespace Sys2Proof.Machine

/-! ### The verdict after one more byte -/

/-- A window that begins with the marker still does with a byte appended. -/
theorem marker_append {W : Bytes} (b : Byte) (hm : W.getD 0 0 = 0xFF#8) (hn : 0 < W.length) :
    (W ++ [b]).getD 0 0 = 0xFF#8 := by
  rw [List.getD_append _ _ _ _ hn, hm]

/-- The row PRE: only the marker is kept. -/
theorem verdict_push_pre {W : Bytes} (b : Byte) (h : QuiescentIn W .pre) :
    verdict (W ++ [b]) = if b = 0xFF#8 then .wait .id else .fail .noMarker := by
  obtain rfl := List.length_eq_zero_iff.1 h
  split
  · next hb => exact verdict_wait_id hb rfl
  · next hb => exact verdict_noMarker Nat.zero_lt_one hb

/-- The row ID: any byte is the id. -/
theorem verdict_push_id {W : Bytes} (b : Byte) (h : QuiescentIn W .id) : verdict (W ++ [b]) = .wait .len := by
  obtain ⟨hn, hm⟩ := h
  exact verdict_wait_len (marker_append b hm (by omega)) (.inl (by simp [hn]))

/-- The row LEN before the low byte: any byte is the low one. -/
theorem verdict_push_lenLow {W : Bytes} (b : Byte) (h : QuiescentIn W .len) (hn : W.length = 2) :
    verdict (W ++ [b]) = .wait .len :=
  verdict_wait_len (marker_append b h.2 (by omega)) (.inr (by simp [hn]))

/-- The high byte completes the length field. -/
theorem frameLength_push_high {W : Bytes} (b : Byte) (hn : W.length = 3) :
    frameLength (W ++ [b]) = byteAt W 2 + 256 * b.toNat := by
  have hlow : (W ++ [b]).getD 2 0 = W.getD 2 0 := List.getD_append _ _ _ _ (by omega)
  have hhigh : (W ++ [b]).getD 3 0 = b := by rw [List.getD_append_right _ _ _ _ (by omega), hn]; rfl
  rw [frameLength, byteAt, byteAt, hlow, hhigh, byteAt]

/-- The row LEN before the high byte: the length field decides. -/
theorem verdict_push_lenHigh {W : Bytes} (b : Byte) (h : QuiescentIn W .len) (hn : W.length = 3) :
    verdict (W ++ [b]) =
      if 1024 < byteAt W 2 + 256 * b.toNat then .fail .lengthOversize
      else if byteAt W 2 + 256 * b.toNat = 0 then .wait .cs else .wait .data := by
  have hmark := marker_append b h.2 (by omega)
  have hlen : (W ++ [b]).length = 4 := by simp [hn]
  rw [← frameLength_push_high b hn]
  split_ifs with hover hzero
  · exact verdict_lengthOversize hmark (by omega) hover
  · exact verdict_wait_cs hmark (by omega) (by omega)
  · exact verdict_wait_data hmark (by omega) (by omega) (by omega)

/-- The row DATA: the last payload byte leads to CS. -/
theorem verdict_push_data {W : Bytes} (b : Byte) (h : QuiescentIn W .data) :
    verdict (W ++ [b]) = if W.length + 1 = 4 + frameLength W then .wait .cs else .wait .data := by
  obtain ⟨hn, hw, hm, hL⟩ := h
  have hmark := marker_append b hm (by omega)
  have hlength := frameLength_append [b] hn
  have hlen : (W ++ [b]).length = W.length + 1 := by simp
  split_ifs with hlast
  · exact verdict_wait_cs hmark (by omega) (by omega)
  · exact verdict_wait_data hmark (by omega) (by omega) (by omega)

/-- The row CS: the sum behind the header decides whether the whole window is emitted. -/
theorem verdict_push_cs {W : Bytes} (b : Byte) (h : QuiescentIn W .cs) :
    verdict (W ++ [b]) =
      if checksumOk ((W ++ [b]).drop 4) then .emit (W ++ [b]) else .fail .checksumMismatch := by
  obtain ⟨hn, hm, hL⟩ := h
  have hmark := marker_append b hm (by omega)
  have hlength := frameLength_append [b] (W := W) (by omega)
  have hlen : (W ++ [b]).length = W.length + 1 := by simp
  have hwhole : (W ++ [b]).take (frameLength (W ++ [b]) + 5) = W ++ [b] := List.take_of_length_le (by omega)
  split
  · next hs =>
    have hemit := verdict_emit hmark (by omega) (by omega) (by rwa [hwhole, ← checksumOk_iff])
    rwa [hwhole] at hemit
  · next hs => exact verdict_checksumMismatch hmark (by omega) (by omega) (by rwa [hwhole, Ne, ← checksumOk_iff])

/-- The sum that decides in CS: the payload held and the byte pushed. -/
theorem checksumOk_push {W : Bytes} (b : Byte) (h : 4 ≤ W.length) :
    checksumOk ((W ++ [b]).drop 4) = true ↔ (sumBytes (W.drop 4) + b.toNat) % 256 = 0 := by
  rw [checksumOk_iff, List.drop_append_of_le_length h, sumBytes_append]
  rfl

/-! ### The rows of PUSH -/

/-- Where the window with the byte waits, PUSH keeps it and returns nothing. -/
theorem push_of_wait {s : State} {b : Byte} {p : Phase} (h : verdict (s.window ++ [b]) = .wait p) :
    ∃ t, exec (.push b) s = .next t ∧ t.window = s.window ++ [b] ∧ phaseOf (s.window ++ [b]) = p ∧
      t.response = some (.framer [] []) := by
  have hrow := (quiescentIn_iff _ p).2 h
  have hlen := Quiescent.length_le ⟨p, hrow⟩
  have hpush := exec_push_of_room b (s := s) (by simp at hlen; omega)
  rw [rescan_of_wait h] at hpush
  exact ⟨_, hpush, rfl, hrow.phaseOf_eq, rfl⟩

/-- Where the verdict on the window with the byte drops, PUSH delivers what it asks for and goes on over the shorter window. -/
theorem push_of_drop {s : State} {b : Byte} {v : Verdict} (hroom : s.window.length < 1029)
    (h : verdict (s.window ++ [b]) = v) (hv : ∀ p, v ≠ .wait p) :
    ∃ t fs ds, exec (.push b) s = .next t ∧ t.response = some (.framer (v.frames ++ fs) (v.diags ++ ds)) ∧
      PushLoop (s.window ++ [b]).tail fs ds t.window := by
  have hpush := exec_push_of_room b hroom
  cases hW : s.window ++ [b] with
  | nil => simp at hW
  | cons x rest =>
    rw [hW] at h hpush
    rw [rescan_of_drop h hv] at hpush
    exact ⟨_, _, _, hpush, rfl, pushLoop_rescan rest⟩

/-- Only an FR word decodes to PUSH or REINIT (R71, R72). -/
theorem framer_of_decode {c : Command} {i : Instr} (h : decode c = .op i) (hi : i = .reinit ∨ ∃ b, i = .push b) :
    ∃ word, c = .framer word := by
  cases c with
  | framer word => exact ⟨word, rfl⟩
  | fieldType word o v =>
    obtain ⟨o', v', hencode⟩ := encode_of_decode_fieldType h
    rcases hi with rfl | ⟨b, rfl⟩ <;> cases hencode

/-- Only an FR word or a reset changes the window (R20, R98). -/
theorem window_eq_or_framer {s t : State} (h : step s = .next t) : t.window = s.window ∨
    ∃ rest, s.pending = .powerReset :: rest ∨ ∃ word, s.pending = .issue (.framer word) :: rest := by
  rcases step_next_cases h with ⟨-, rfl⟩ | ⟨r, rest, hp, ⟨rfl, -⟩ | ⟨m, -, rfl⟩ | ⟨c, i, rfl, hd, he⟩ | ⟨c, st, -, rfl⟩⟩
  · exact .inl rfl
  · exact .inr ⟨rest, .inl hp⟩
  · exact .inl rfl
  · have hword : (i = .reinit ∨ ∃ b, i = .push b) →
        ∃ rest, s.pending = .powerReset :: rest ∨ ∃ word, s.pending = .issue (.framer word) :: rest := fun hi => by
      obtain ⟨word, rfl⟩ := framer_of_decode hd hi
      exact ⟨rest, .inr ⟨word, hp⟩⟩
    rcases exec_next_cases he with ⟨b, hi, -⟩ | ⟨hi, -⟩ | ⟨st, r, rfl⟩ | ⟨a, bs, -, rfl⟩
    · exact .inr (hword (.inr ⟨b, hi⟩))
    · exact .inr (hword (.inl hi))
    · exact .inl rfl
    · exact .inl rfl
  · exact .inl rfl

/-- The view `frame_len` once the header is whole (R25). -/
theorem frameLenOf_of_header {W : Bytes} (h : 4 ≤ W.length) : (frameLenOf W).map BitVec.toNat = some (frameLength W) := by
  rw [frameLenOf, if_pos h, Option.map_some, BitVec.toNat_ofNat, Nat.mod_eq_of_lt (frameLength_lt W)]

/-- The view `len_phase` by the window's length (R23). -/
theorem lenPhaseOf_eq_zero_iff (W : Bytes) : lenPhaseOf W = some 0 ↔ W.length = 2 := by
  unfold lenPhaseOf
  split_ifs <;> simp <;> omega

theorem lenPhaseOf_eq_one_iff (W : Bytes) : lenPhaseOf W = some 1 ↔ W.length = 3 := by
  unfold lenPhaseOf
  split_ifs <;> simp <;> omega

/-- The byte pushed stands behind those held. -/
theorem getElem?_push {W : Bytes} {k : Nat} (b : Byte) (h : W.length = k) : (W ++ [b])[k]? = some b :=
  h ▸ List.getElem?_concat_length

/-- Settles O21: each row is the verdict on the window with the byte, and PUSH keeps the window or drops by it. -/
theorem transitionTable : Obligations.TransitionTable := by
  refine ⟨fun s t hstep hne => (window_eq_or_framer hstep).resolve_left hne, ?_⟩
  intro s b
  dsimp only
  refine ⟨fun hW hb => ?_, fun hW hb => ?_, fun hrow => ?_, fun hrow hphase => ?_, fun lo hrow hphase hlo => ?_,
    fun hrow hlen => ?_, fun hrow hlen => ?_, fun hrow hsum => ?_, fun hrow hsum => ?_⟩
  · have hquiet := push_of_wait (s := s) (b := b) ((verdict_push_pre b (by rw [hW]; rfl)).trans (if_pos hb))
    rwa [hW] at hquiet
  · have hpush := exec_push_of_room b (s := s) (by simp [hW])
    have hscan : rescan (s.window ++ [b]) = rescan [] := by
      rw [hW]
      exact rescan_append_of_no_marker (g := [b]) (by simpa using hb) []
    rw [hscan] at hpush
    exact ⟨_, hpush, rfl, rfl, rfl⟩
  · have hn : s.window.length = 1 := hrow.1
    exact ⟨push_of_wait (verdict_push_id b hrow), (lenPhaseOf_eq_zero_iff _).2 (by simp [hn]), getElem?_push b hn⟩
  · have hn := (lenPhaseOf_eq_zero_iff _).1 hphase
    exact ⟨push_of_wait (verdict_push_lenLow b hrow hn), (lenPhaseOf_eq_one_iff _).2 (by simp [hn]), getElem?_push b hn⟩
  · have hn := (lenPhaseOf_eq_one_iff _).1 hphase
    have hlow : byteAt s.window 2 = lo.toNat := by
      rw [byteAt, List.getD_eq_getElem?_getD, show s.window[2]? = some lo from hlo, Option.getD_some]
    have hverdict := verdict_push_lenHigh b hrow hn
    have hlength := frameLength_push_high b hn
    have hheader : 4 ≤ (s.window ++ [b]).length := by simp [hn]
    rw [hlow] at hverdict hlength
    refine ⟨fun hover => ?_, fun hzero => ?_, fun hpos hmax => ?_⟩
    · exact push_of_drop (by omega) (hverdict.trans (if_pos hover)) nofun
    · refine ⟨push_of_wait (hverdict.trans ((if_neg (by omega)).trans (if_pos hzero))), ?_⟩
      rw [frameLenOf, if_pos hheader, hlength, hzero]
      rfl
    · refine ⟨push_of_wait (hverdict.trans ((if_neg (by omega)).trans (if_neg (by omega)))), ?_⟩
      rw [frameLenOf_of_header hheader, hlength]
  · exact push_of_wait ((verdict_push_data b hrow).trans (if_neg (by omega)))
  · exact push_of_wait ((verdict_push_data b hrow).trans (if_pos hlen))
  · have hlen := Quiescent.length_le ⟨_, hrow⟩
    have hsumOk := (checksumOk_push b (by have hn := hrow.1; omega)).2 hsum
    exact push_of_drop (by omega) ((verdict_push_cs b hrow).trans (if_pos hsumOk)) nofun
  · have hlen := Quiescent.length_le ⟨_, hrow⟩
    have hsumBad := mt (checksumOk_push b (by have hn := hrow.1; omega)).1 hsum
    exact push_of_drop (by omega) ((verdict_push_cs b hrow).trans (if_neg hsumBad)) nofun

/-! ### A frame of length 0 -/

/-- A window shorter than the shortest frame emits nothing (R62). -/
theorem rescan_frames_of_short {W : Bytes} (h : W.length < 5) : (rescan W).frames = [] := by
  refine List.eq_nil_iff_forall_not_mem.2 fun f hf => ?_
  obtain ⟨⟨hlen, -⟩, hinfix⟩ := rescan_frames_sound W f hf
  have hle := hinfix.length_le
  omega

/-- Behind an emitted frame of length 0 nothing is reported: what is left waits, if the id is the marker, or holds none. -/
theorem rescan_diags_of_zero_header (id : Byte) : (rescan [id, 0, 0, 0]).diags = [] := by
  by_cases hid : id = 0xFF#8
  · have hwait : verdict [id, 0, 0, 0] = .wait .cs := verdict_wait_cs hid (Nat.zero_le _) rfl
    rw [rescan_of_wait hwait]
  · have hscan := rescan_append_of_no_marker (g := [id, 0, 0, 0]) (by simpa using hid) []
    rw [List.append_nil] at hscan
    rw [hscan, rescan_nil]

/-- One byte sums to 0 modulo 256 only when it is 0. -/
theorem checksumOk_singleton_iff (c : Byte) : checksumOk [c] = true ↔ c = 0 := by
  have hlt := c.isLt
  rw [checksumOk_iff, sumBytes, sumBytes, ← BitVec.toNat_inj]
  show (c.toNat + 0) % 256 = 0 ↔ c.toNat = 0
  omega

/-- Settles O22: the window is in the row CS, and the byte is the whole sum. -/
theorem zeroLengthFrame : Obligations.ZeroLengthFrame := by
  intro s id hW
  have hrow : QuiescentIn [0xFF, id, 0x00, 0x00] .cs := ⟨rfl, rfl, Nat.zero_le _⟩
  have hpush := fun b => exec_push_of_room b (s := s) (by simp [hW])
  rw [hW] at hpush ⊢
  simp only [List.cons_append, List.nil_append] at hpush
  refine ⟨(quiescentIn_iff _ _).1 hrow, ⟨_, hpush 0x00, ?_⟩, fun c hc => ⟨_, (rescan [id, 0, 0, c]).diags, hpush c, ?_⟩⟩
  · have hemit : verdict (0xFF :: [id, 0x00, 0x00, 0x00]) = .emit [0xFF, id, 0x00, 0x00, 0x00] :=
      (verdict_push_cs 0x00 hrow).trans (if_pos rfl)
    rw [deliver_response, rescan_of_emit hemit, rescan_frames_of_short (by simp), rescan_diags_of_zero_header]
  · have hfail : verdict (0xFF :: [id, 0x00, 0x00, c]) = .fail .checksumMismatch :=
      (verdict_push_cs c hrow).trans (if_neg (mt (checksumOk_singleton_iff c).1 hc))
    rw [deliver_response, rescan_of_fail hfail, rescan_frames_of_short (by simp)]
    rfl

end Sys2Proof.Machine
end

section
/-! The byte-at-a-time form (R89): its registers are at every moment the views of the bytes examined so far, so each byte it takes
either stays or brings the drop of R90. -/

namespace Sys2Proof.Machine

/-- The registers say of the bytes examined what the views say of a window (R22 to R27); captures count where they are valid. -/
structure Replay.Tracks (r : Replay) : Prop where
  cursor_le : r.cursor ≤ r.buf.length
  examined : QuiescentIn (r.buf.take r.cursor) r.phase
  lenHigh : r.phase = .len → r.lenHigh = decide (r.cursor = 3)
  length : r.phase = .data ∨ r.phase = .cs → r.length = frameLength (r.buf.take r.cursor)

/-- A reset drops the oldest byte and examines none yet. -/
theorem Replay.Tracks.reset (r : Replay) : (replayReset r).Tracks where
  cursor_le := Nat.zero_le _
  examined := rfl
  lenHigh := nofun
  length := nofun

/-- Nothing of `r` was emitted, delivered or dropped on the way to `r'`, and one more byte is examined. -/
structure Replay.Takes (r r' : Replay) : Prop where
  buf : r'.buf = r.buf
  cursor : r'.cursor = r.cursor + 1
  frames : r'.frames = r.frames
  diags : r'.diags = r.diags

/-- What `r'` has beside `r` is what the verdict `v` asks for: its frames, its events and the drop of the oldest byte. -/
structure Replay.Drops (v : Verdict) (r r' : Replay) : Prop where
  buf : r'.buf = r.buf.tail
  cursor : r'.cursor = 0
  frames : r'.frames = r.frames ++ v.frames
  diags : r'.diags = r.diags ++ v.diags

/-- What one pass of R89 does when it follows the verdict on the bytes then examined: it keeps the registers in step with the
views, and takes a byte where these bytes wait, or does what their verdict asks for. -/
def Replay.Follows (r r' : Replay) : Prop :=
  r'.Tracks ∧ (r.Takes r' ∨ ∃ v, verdict (r.buf.take (r.cursor + 1)) = v ∧ (∀ p, v ≠ .wait p) ∧ r.Drops v r')

/-- A byte taken follows the verdict where the bytes examined then wait in the state shown, with the captures valid there. -/
theorem Replay.follows_of_wait {r r' : Replay} (hc : r.cursor < r.buf.length) (htakes : r.Takes r')
    (hv : verdict (r.buf.take (r.cursor + 1)) = .wait r'.phase)
    (hhigh : r'.phase = .len → r'.lenHigh = decide (r.cursor = 2))
    (hlength : r'.phase = .data ∨ r'.phase = .cs → r'.length = frameLength (r.buf.take (r.cursor + 1))) :
    r.Follows r' := by
  have hbuf := htakes.buf
  have hcursor := htakes.cursor
  exact ⟨{ cursor_le := by rw [hbuf, hcursor]; exact hc
           examined := by rw [hbuf, hcursor]; exact (quiescentIn_iff _ _).2 hv
           lenHigh := by simpa [hcursor] using hhigh
           length := by rwa [hbuf, hcursor] }, .inl htakes⟩

/-- A reset follows a verdict that drops, where its frames and events have been delivered. -/
theorem Replay.follows_of_drop {r r' : Replay} {v : Verdict} (hv : verdict (r.buf.take (r.cursor + 1)) = v)
    (hne : ∀ p, v ≠ .wait p) (hbuf : r'.buf = r.buf) (hframes : r'.frames = r.frames ++ v.frames)
    (hdiags : r'.diags = r.diags ++ v.diags) : r.Follows (replayReset r') :=
  ⟨.reset r', .inr ⟨v, hv, hne, congrArg List.tail hbuf, rfl, hframes, hdiags⟩⟩

/-- One pass of R89 follows the verdict, row by row of R98. -/
theorem Replay.Tracks.follows_step {r : Replay} (h : r.Tracks) (hc : r.cursor < r.buf.length) :
    r.Follows (replayStep r) := by
  obtain ⟨buf, c, phase, lenHigh, L, frames, diags⟩ := r
  obtain ⟨-, hrow, hhigh, hL⟩ := h
  simp only at hc hrow hhigh hL
  have hlen : (buf.take c).length = c := by rw [List.length_take]; omega
  have hnext : buf.take (c + 1) = buf.take c ++ [buf.getD c 0] := by
    rw [List.getD_eq_getElem _ _ hc, List.take_append_getElem]
  rw [replayStep, if_pos hc]
  cases phase with
  | pre =>
    obtain rfl : c = 0 := hlen.symm.trans hrow
    have hv := verdict_push_pre (buf.getD 0 0) hrow
    rw [← hnext] at hv
    simp only [replayByte]
    split
    · next hx => exact Replay.follows_of_wait hc ⟨rfl, rfl, rfl, rfl⟩ (hv.trans (if_pos hx)) nofun (by simp)
    · next hx =>
      exact Replay.follows_of_drop (hv.trans (if_neg hx)) nofun rfl (List.append_nil _).symm (List.append_nil _).symm
  | id =>
    obtain rfl : c = 1 := hlen.symm.trans hrow.1
    exact Replay.follows_of_wait hc ⟨rfl, rfl, rfl, rfl⟩ (hnext ▸ verdict_push_id _ hrow) (fun _ => rfl) (by simp [replayByte])
  | len =>
    rcases hrow.1 with hn | hn
    · obtain rfl : c = 2 := hlen.symm.trans hn
      obtain rfl : lenHigh = false := hhigh rfl
      exact Replay.follows_of_wait hc ⟨rfl, rfl, rfl, rfl⟩ (hnext ▸ verdict_push_lenLow _ hrow hn) (fun _ => rfl) (by simp [replayByte])
    · obtain rfl : c = 3 := hlen.symm.trans hn
      obtain rfl : lenHigh = true := hhigh rfl
      have hlow : byteAt (buf.take 3) 2 = byteAt buf 2 :=
        congrArg BitVec.toNat (getD_of_take_prefix (List.prefix_refl _) (Nat.le_of_lt hc) (by decide))
      have hv := verdict_push_lenHigh (buf.getD 3 0) hrow hn
      have hlength := frameLength_push_high (buf.getD 3 0) hn
      rw [hlow, ← hnext] at hv hlength
      simp only [replayByte, if_true]
      split_ifs with hover hzero
      · exact Replay.follows_of_drop (hv.trans (if_pos hover)) nofun rfl (List.append_nil _).symm rfl
      · exact Replay.follows_of_wait hc ⟨rfl, rfl, rfl, rfl⟩ (hv.trans ((if_neg hover).trans (if_pos hzero))) nofun
          fun _ => hlength.symm
      · exact Replay.follows_of_wait hc ⟨rfl, rfl, rfl, rfl⟩ (hv.trans ((if_neg hover).trans (if_neg hzero))) nofun
          fun _ => hlength.symm
  | data =>
    obtain rfl := hL (.inl rfl)
    have hheader : 4 ≤ (buf.take c).length := hrow.1
    have hv := verdict_push_data (buf.getD c 0) hrow
    have hlength := frameLength_append [buf.getD c 0] hheader
    rw [hlen] at hv
    rw [← hnext] at hv hlength
    simp only [replayByte]
    split
    · next hlast =>
      exact Replay.follows_of_wait hc ⟨rfl, rfl, rfl, rfl⟩ (hv.trans (if_pos (by omega))) nofun fun _ => hlength.symm
    · next hmore =>
      exact Replay.follows_of_wait hc ⟨rfl, rfl, rfl, rfl⟩ (hv.trans (if_neg (by omega))) nofun fun _ => hlength.symm
  | cs =>
    have hv := verdict_push_cs (buf.getD c 0) hrow
    rw [← hnext] at hv
    simp only [replayByte]
    split
    · next hs =>
      exact Replay.follows_of_drop (hv.trans (if_pos hs)) nofun rfl rfl (List.append_nil _).symm
    · next hs =>
      exact Replay.follows_of_drop (hv.trans (if_neg hs)) nofun rfl (List.append_nil _).symm rfl

/-- `r'` has examined every byte, and holds, has emitted and has delivered what the loop of R90 leaves of the buffer of `r`. -/
structure Replay.Finishes (r r' : Replay) : Prop where
  tracks : r'.Tracks
  cursor : r'.cursor = r'.buf.length
  buf : r'.buf = (rescan r.buf).window
  frames : r'.frames = r.frames ++ (rescan r.buf).frames
  diags : r'.diags = r.diags ++ (rescan r.buf).diags

/-- With every byte examined the buffer waits, and both forms are done. -/
theorem Replay.Tracks.finishes_self {r : Replay} (h : r.Tracks) (hc : r.cursor = r.buf.length) : r.Finishes r := by
  have hrow := h.examined
  rw [hc, List.take_length] at hrow
  have hscan := rescan_of_wait ((quiescentIn_iff _ _).1 hrow)
  exact ⟨h, hc, by rw [hscan], by rw [hscan, List.append_nil], by rw [hscan, List.append_nil]⟩

/-- A byte taken changes nothing of what the loop of R90 has still to do. -/
theorem Replay.Takes.finishes {r r' r'' : Replay} (h : r.Takes r') (hend : r'.Finishes r'') : r.Finishes r'' := by
  obtain ⟨hbuf, -, hframes, hdiags⟩ := h
  obtain ⟨htracks, hcursor, hwindow, hfs, hds⟩ := hend
  rw [hbuf] at hwindow hfs hds
  exact ⟨htracks, hcursor, hwindow, hframes ▸ hfs, hdiags ▸ hds⟩

/-- A drop is the next pass of the loop of R90: the verdict on the bytes examined is that on the buffer (R87). -/
theorem Replay.Drops.finishes {r r' r'' : Replay} {v : Verdict} (hv : verdict (r.buf.take (r.cursor + 1)) = v)
    (hne : ∀ p, v ≠ .wait p) (h : r.Drops v r') (hend : r'.Finishes r'') : r.Finishes r'' := by
  obtain ⟨hbuf, -, hframes, hdiags⟩ := h
  obtain ⟨htracks, hcursor, hwindow, hfs, hds⟩ := hend
  have hwhole := verdict_append (r.buf.drop (r.cursor + 1)) hv hne
  rw [List.take_append_drop] at hwhole
  cases hB : r.buf with
  | nil =>
    rw [hB] at hwhole
    exact absurd hwhole.symm (hne .pre)
  | cons b rest =>
    rw [hB] at hwhole hbuf
    rw [hbuf, List.tail_cons] at hwindow hfs hds
    have hscan := rescan_of_drop hwhole hne
    rw [← hB] at hscan
    refine ⟨htracks, hcursor, by rw [hscan, hwindow], ?_, ?_⟩
    · rw [hscan, hfs, hframes, List.append_assoc]
    · rw [hscan, hds, hdiags, List.append_assoc]

/-- The byte-at-a-time form comes to the end: a pass takes one of the bytes left, or shortens the buffer (R89, R91). -/
theorem Replay.Tracks.finishes {r : Replay} (h : r.Tracks) : ∃ k, r.Finishes (replayStep^[k] r) := by
  rcases Nat.eq_or_lt_of_le h.cursor_le with hc | hc
  · exact ⟨0, h.finishes_self hc⟩
  · obtain ⟨htracks, htakes | ⟨v, hv, hne, hdrops⟩⟩ := h.follows_step hc
    · have hbuf := htakes.buf
      have hcursor := htakes.cursor
      obtain ⟨k, hend⟩ := htracks.finishes
      exact ⟨k + 1, htakes.finishes hend⟩
    · have hbuf := hdrops.buf
      obtain ⟨k, hend⟩ := htracks.finishes
      exact ⟨k + 1, hdrops.finishes hv hne hend⟩
termination_by (r.buf.length, r.buf.length - r.cursor)
decreasing_by
  · rw [hbuf, hcursor]
    exact Prod.Lex.right _ (by omega)
  · rw [hbuf, List.length_tail]
    exact Prod.Lex.left _ _ (by omega)

/-- At the start of a PUSH the registers are the views of the window, whatever the captures that are not valid hold. -/
theorem Replay.tracks_push {W : Bytes} (b : Byte) (freeHigh : Bool) (freeLength : Nat) (h : Quiescent W) :
    (replayPush b (replayOf freeHigh freeLength W)).Tracks := by
  obtain ⟨p, hrow⟩ := h
  have hexamined : (W ++ [b]).take W.length = W := List.take_left
  have hphase : phaseOf W = p := hrow.phaseOf_eq
  refine ⟨?_, ?_, fun hp => ?_, fun hp => ?_⟩
  · exact (List.prefix_append W [b]).length_le
  · show QuiescentIn ((W ++ [b]).take W.length) (phaseOf W)
    rwa [hexamined, hphase]
  · rcases (phaseOf_eq_len_iff W).1 hp with hn | hn
    · exact (replayOf_lenHigh_low freeHigh freeLength hn).trans (by simp [replayPush, replayOf, hn])
    · exact (replayOf_lenHigh_high freeHigh freeLength hn).trans (by simp [replayPush, replayOf, hn])
  · have hheader : 4 ≤ W.length := by
      rcases hp with hp | hp <;> cases hphase.symm.trans hp <;> have := hrow.1 <;> omega
    show _ = frameLength ((W ++ [b]).take W.length)
    rw [hexamined]
    exact replayOf_length freeHigh freeLength hheader

/-- Settles O24: the registers at the end are in step with the views, and all bytes of the window left are examined. -/
theorem byteAtATimeFormAgrees : Obligations.ByteAtATimeFormAgrees := by
  intro b s freeHigh freeLength hq
  obtain ⟨k, htracks, hcursor, hbuf, hframes, hdiags⟩ := (Replay.tracks_push b freeHigh freeLength hq).finishes
  refine ⟨_, _, _, k, exec_push_of_room b (Nat.lt_succ_of_le hq.length_le), rfl, ?_⟩
  generalize replayStep^[k] (replayPush b (replayOf freeHigh freeLength s.window)) = r at *
  have hwindow : r.buf = (rescan (s.window ++ [b])).window := hbuf
  dsimp only
  rw [deliver_window, State.setWindow_window, ← hwindow]
  obtain ⟨-, hrow, hhigh, hlength⟩ := htracks
  rw [hcursor, List.take_length] at hrow hlength
  refine ⟨hcursor, rfl, hframes, hdiags, hrow.phaseOf_eq.symm, fun hp => ?_, hlength⟩
  rcases (phaseOf_eq_len_iff r.buf).1 (hrow.phaseOf_eq.trans hp) with hn | hn <;> rw [hhigh hp, hcursor, hn]
  · exact (lenPhaseOf_eq_zero_iff _).2 hn
  · exact (lenPhaseOf_eq_one_iff _).2 hn

end Sys2Proof.Machine
end

section
/-! WIDTH.T and READ.T (R111 to R131): what each returns, as a function of the type and of the buffer; the values READ.T spells from
the bytes at the offset; and what it returns behind a WRITE.T and on an emitted frame. -/

namespace Sys2Proof.Machine

/-! ### What WIDTH.T and READ.T return -/

/-- WIDTH.T returns OK and the type's width, in every state (R111). -/
theorem exec_widthInstr (T : FieldType) (s : State) :
    exec T.widthInstr s = .next (s.respond (.fieldType .ok (.width (BitVec.ofNat 4 T.width)))) := by
  cases T <;> rfl

/-- What READ.T returns on a buffer (R112). -/
def readResponse (T : FieldType) (o : Offset) (m : Memory) : Response :=
  if o.toNat + T.width ≤ m.size then .fieldType .ok (.rdata (T.toValue (leNat (memRead m o.toNat T.width))))
  else .fieldType .outOfBounds .nothing

/-- READ.T returns `readResponse` of the buffer and does nothing else (R112, R131). -/
theorem exec_readInstr_eq_respond (T : FieldType) (o : Offset) (s : State) :
    exec (T.readInstr o) s = .next (s.respond (readResponse T o s.buffer)) := by
  rw [exec_readInstr]
  rcases readField_cases T o s with ⟨hin, hread⟩ | ⟨hout, hread⟩
  · rw [hread, readResponse, if_pos hin]
  · rw [hread, readResponse, if_neg (Nat.not_le_of_lt hout)]

/-- READ.T past the end of the buffer returns OutOfBounds (R112). -/
theorem exec_readInstr_of_lt {T : FieldType} {o : Offset} {s : State} (h : s.buffer.size < o.toNat + T.width) :
    exec (T.readInstr o) s = .next (s.respond (.fieldType .outOfBounds .nothing)) := by
  rw [exec_readInstr_eq_respond, readResponse, if_neg (Nat.not_le_of_lt h)]

/-- What READ.T returns depends on the buffer's length and on the bytes of the field alone (R131). -/
theorem readResponse_congr {T : FieldType} {o : Offset} {m m' : Memory} (hsize : m.size = m'.size)
    (hbytes : ∀ i, i < T.width → readByte? m (o.toNat + i) = readByte? m' (o.toNat + i)) :
    readResponse T o m = readResponse T o m' := by
  by_cases hin : o.toNat + T.width ≤ m.size
  · have hrun : memRead m o.toNat T.width = memRead m' o.toNat T.width := by
      refine memRead_congr _ _ fun a hlo hhi => ?_
      have hbyte := hbytes (a - o.toNat) (by omega)
      rw [Nat.add_sub_cancel' hlo] at hbyte
      have hin' : readByte? m' a = some (cellAt a m'.cells) := readByte?_eq_some_iff.2 ⟨by omega, rfl⟩
      exact (readByte?_eq_some_iff.1 (hbyte.trans hin')).2
    rw [readResponse, readResponse, hrun, hsize]
  · rw [readResponse, readResponse, if_neg hin, if_neg (hsize ▸ hin)]

/-- Settles O34: each of the nine words is the WIDTH word of its type. -/
theorem widthOfEachType : Obligations.WidthOfEachType := by
  intro s o v
  have hreturns (T : FieldType) := And.intro (decode_width_word T o v) (exec_widthInstr T s)
  exact ⟨hreturns .u8, hreturns .s8, hreturns .u16, hreturns .s16, hreturns .u32, hreturns .s32, hreturns .u64,
    hreturns .s64, hreturns .float⟩

/-- Settles O52: both operations only return. -/
theorem widthAndReadChangeNothing : Obligations.WidthAndReadChangeNothing := by
  intro T o i s hi
  rcases hi with rfl | rfl
  · exact ⟨_, exec_widthInstr T s, rfl, rfl, fun _ => rfl, rfl, rfl, rfl⟩
  · exact ⟨_, exec_readInstr_eq_respond T o s, rfl, rfl, fun _ => rfl, rfl, rfl, rfl⟩

/-- Settles O39: WIDTH.T returns its constant, READ.T a function of the length and of its own bytes. -/
theorem readDependsOnItsBytesAlone : Obligations.ReadDependsOnItsBytesAlone := by
  intro T o s s'
  refine ⟨⟨_, exec_widthInstr T s, exec_widthInstr T s'⟩, fun hsize hbytes => ⟨_, exec_readInstr_eq_respond T o s, ?_⟩⟩
  rw [readResponse_congr hsize hbytes]
  exact exec_readInstr_eq_respond T o s'

/-! ### The value of each width -/

/-- A byte that can be read lies inside the buffer. -/
theorem lt_size_of_readByte? {m : Memory} {a : Nat} {b : Byte} (h : readByte? m a = some b) : a < m.size :=
  (readByte?_eq_some_iff.1 h).1

/-- A run of bytes is its first byte and the run behind it (R14). -/
theorem memRead_cons {m : Memory} {a n : Nat} {b : Byte} {bs : Bytes} (h : readByte? m a = some b)
    (hrest : memRead m (a + 1) n = bs) : memRead m a (n + 1) = b :: bs := by
  rw [memRead, hrest, (readByte?_eq_some_iff.1 h).2]

/-- READ.T in bounds returns the number its bytes spell, as a value of the type that loses nothing of it (R112). -/
theorem exec_readInstr_of_leNat {T : FieldType} {o : Offset} {s : State} {n : Nat}
    (hin : o.toNat + T.width ≤ s.buffer.size) (hrun : leNat (memRead s.buffer o.toNat T.width) = n) :
    exec (T.readInstr o) s = .next (s.respond (.fieldType .ok (.rdata (T.toValue n)))) ∧ (T.toValue n).uint = n := by
  subst hrun
  exact ⟨exec_readInstr_of_le hin, toValue_memRead_uint T s.buffer o.toNat⟩

/-- READ.U8 and READ.S8 return the byte at the offset (R122, R123). -/
theorem exec_readInstr_byte {s : State} {o : Offset} {b : Byte} (h : readByte? s.buffer o.toNat = some b) :
    exec (.readU8 o) s = .next (s.respond (.fieldType .ok (.rdata (.w8 b)))) ∧
      exec (.readS8 o) s = .next (s.respond (.fieldType .ok (.rdata (.w8 b)))) := by
  have hin : o.toNat + 1 ≤ s.buffer.size := lt_size_of_readByte? h
  have hrun : leNat (memRead s.buffer o.toNat 1) = b.toNat := by
    rw [memRead_cons h rfl]
    rfl
  have hval : BitVec.ofNat 8 b.toNat = b := by simp
  rw [← hval]
  exact ⟨(exec_readInstr_of_leNat (T := .u8) hin hrun).1, (exec_readInstr_of_leNat (T := .s8) hin hrun).1⟩

/-- The two bytes at an offset spell the number the 16-bit types read (R124, R126). -/
theorem leNat_memRead_half {m : Memory} {a : Nat} {b0 b1 : Byte} (h0 : readByte? m a = some b0)
    (h1 : readByte? m (a + 1) = some b1) : leNat (memRead m a 2) = b0.toNat + 256 * b1.toNat := by
  rw [memRead_cons h0 (memRead_cons h1 rfl)]
  rfl

/-- `sint` with its bound written as the largest nonnegative number (R11). -/
theorem sintOf_eq_ite_le (n v : Nat) :
    sintOf n v = if v ≤ 2 ^ (n - 1) - 1 then (v : Int) else (v : Int) - 2 ^ n := by
  simp only [sintOf, Nat.le_sub_one_iff_lt (Nat.two_pow_pos _)]

/-- A 32-bit value is its own bit pattern as a Float (R70, R125). -/
theorem number_float (v : BitVec 32) : FieldType.number .float (.w32 v) = .floatBits v := by
  simp [FieldType.number, Value.uint]

/-- Settles O35: both types read one byte, and the two number readings differ from 128 on. -/
theorem readByteTypes : Obligations.ReadByteTypes := by
  intro s o u
  refine ⟨decode_read_word .u8 o u, decode_read_word .s8 o u, fun b h => ?_, fun hout => ?_⟩
  · obtain ⟨hu, hs⟩ := exec_readInstr_byte h
    exact ⟨hu, hs, rfl, congrArg Number.int (sintOf_eq_ite_le 8 b.toNat)⟩
  · have hlt : s.buffer.size < o.toNat + 1 := Nat.lt_succ_of_le hout
    exact ⟨exec_readInstr_of_lt (T := .u8) hlt, exec_readInstr_of_lt (T := .s8) hlt⟩

/-- Settles O36: both types read the number of two bytes. -/
theorem readHalfTypes : Obligations.ReadHalfTypes := by
  intro s o u
  refine ⟨decode_read_word .u16 o u, decode_read_word .s16 o u, fun b0 b1 h0 h1 => ?_, fun hout => ?_⟩
  · have hin : o.toNat + 2 ≤ s.buffer.size := lt_size_of_readByte? h1
    have hrun := leNat_memRead_half h0 h1
    obtain ⟨hu, hval⟩ := exec_readInstr_of_leNat (T := .u16) hin hrun
    obtain ⟨hs, -⟩ := exec_readInstr_of_leNat (T := .s16) hin hrun
    exact ⟨hu, hs, rfl, hval, congrArg Number.int (sintOf_eq_ite_le 16 _)⟩
  · exact ⟨exec_readInstr_of_lt (T := .u16) hout, exec_readInstr_of_lt (T := .s16) hout⟩

/-- Settles O37: the three types read the number of four bytes, and Float keeps its bits. -/
theorem readWordTypes : Obligations.ReadWordTypes := by
  intro s o u
  refine ⟨decode_read_word .u32 o u, decode_read_word .s32 o u, decode_read_word .float o u,
    fun b0 b1 b2 b3 h0 h1 h2 h3 => ?_, fun hout => ?_⟩
  · have hin : o.toNat + 4 ≤ s.buffer.size := lt_size_of_readByte? h3
    have hrun : leNat (memRead s.buffer o.toNat 4) =
        b0.toNat + 2 ^ 8 * b1.toNat + 2 ^ 16 * b2.toNat + 2 ^ 24 * b3.toNat := by
      rw [memRead_cons h0 (memRead_cons h1 (memRead_cons h2 (memRead_cons h3 rfl)))]
      simp only [leNat, memRead]
      omega
    obtain ⟨hu, hval⟩ := exec_readInstr_of_leNat (T := .u32) hin hrun
    obtain ⟨hs, -⟩ := exec_readInstr_of_leNat (T := .s32) hin hrun
    obtain ⟨hf, -⟩ := exec_readInstr_of_leNat (T := .float) hin hrun
    exact ⟨hu, hs, hf, hval, rfl, number_float _, rfl⟩
  · exact ⟨exec_readInstr_of_lt (T := .u32) hout, exec_readInstr_of_lt (T := .s32) hout,
      exec_readInstr_of_lt (T := .float) hout⟩

/-- Settles O38: both types read the number of eight bytes, all 64 bits of it. -/
theorem readDoubleTypes : Obligations.ReadDoubleTypes := by
  intro s o u
  refine ⟨decode_read_word .u64 o u, decode_read_word .s64 o u,
    fun b0 b1 b2 b3 b4 b5 b6 b7 h0 h1 h2 h3 h4 h5 h6 h7 => ?_, fun hout => ?_⟩
  · have hin : o.toNat + 8 ≤ s.buffer.size := lt_size_of_readByte? h7
    have hbytes : memRead s.buffer o.toNat 8 = [b0, b1, b2, b3, b4, b5, b6, b7] :=
      memRead_cons h0 (memRead_cons h1 (memRead_cons h2 (memRead_cons h3
        (memRead_cons h4 (memRead_cons h5 (memRead_cons h6 (memRead_cons h7 rfl)))))))
    have hrun : leNat (memRead s.buffer o.toNat 8) =
        b0.toNat + 256 * b1.toNat + 256 ^ 2 * b2.toNat + 256 ^ 3 * b3.toNat + 256 ^ 4 * b4.toNat +
          256 ^ 5 * b5.toNat + 256 ^ 6 * b6.toNat + 256 ^ 7 * b7.toNat := by
      simp only [hbytes, leNat]
      ring
    obtain ⟨hu, hval⟩ := exec_readInstr_of_leNat (T := .u64) hin hrun
    obtain ⟨hs, -⟩ := exec_readInstr_of_leNat (T := .s64) hin hrun
    exact ⟨hval, hu, hs, rfl, rfl⟩
  · exact ⟨exec_readInstr_of_lt (T := .u64) hout, exec_readInstr_of_lt (T := .s64) hout⟩

/-! ### READ.T and WRITE.T -/

/-- WRITE.T is the shared write of the type (R136). -/
theorem exec_of_writeInstr {T : FieldType} {o : Offset} {v : Value} {i : Instr} (h : T.writeInstr o v = some i)
    (s : State) : exec i s = writeField T o v s := by
  unfold FieldType.writeInstr at h
  split at h <;> cases h <;> rfl

/-- WRITE.T in bounds stores its bytes and returns OK (R136). -/
theorem exec_writeInstr_of_le {T : FieldType} {o : Offset} {v : Value} {i : Instr} {s : State}
    (h : T.writeInstr o v = some i) (hin : o.toNat + T.width ≤ s.buffer.size) :
    exec i s = .next ((s.setBuffer (memWrite s.buffer o.toNat (leBytes v.uint T.width))).respond
      (.fieldType .ok .nothing)) := by
  rw [exec_of_writeInstr h]
  rcases writeField_cases T o v s with ⟨-, hwrite⟩ | ⟨hout, -⟩
  · exact hwrite
  · omega

/-- An operation that returns OK has not returned OutOfBounds. -/
theorem next_ne_outOfBounds {s t : State} {r : Result} (h : t.response = some (.fieldType .ok r)) :
    (.next t : Host.Outcome State Fault Refusal) ≠ .next (s.respond (.fieldType .outOfBounds .nothing)) := by
  intro heq
  have hresponse := congrArg State.response (Host.Outcome.next.inj heq)
  rw [h] at hresponse
  simp at hresponse

/-- Settles O44: each of the two does one of two things, on the same condition, and OK is not OutOfBounds. -/
theorem readAndWriteFaultTogether : Obligations.ReadAndWriteFaultTogether := by
  intro s T o v i hi
  constructor
  · rw [exec_of_writeInstr hi]
    rcases writeField_cases T o v s with ⟨hin, hwrite⟩ | ⟨hout, hwrite⟩ <;> rw [hwrite]
    · exact iff_of_false (next_ne_outOfBounds rfl) (Nat.not_lt_of_le hin)
    · exact iff_of_true rfl hout
  · rw [exec_readInstr]
    rcases readField_cases T o s with ⟨hin, hread⟩ | ⟨hout, hread⟩ <;> rw [hread]
    · exact iff_of_false (next_ne_outOfBounds rfl) (Nat.not_lt_of_le hin)
    · exact iff_of_true rfl hout

/-- A value that WRITE.T takes is a value of the type, given by its number (R135). -/
theorem toValue_uint_of_writeInstr {T : FieldType} {o : Offset} {v : Value} {i : Instr}
    (h : T.writeInstr o v = some i) : T.toValue v.uint = v := by
  unfold FieldType.writeInstr at h
  split at h <;> cases h <;> simp [FieldType.toValue, Value.uint]

/-- A value that WRITE.T takes fits the bytes of the type (R135). -/
theorem uint_lt_of_writeInstr {T : FieldType} {o : Offset} {v : Value} {i : Instr}
    (h : T.writeInstr o v = some i) : v.uint < 256 ^ T.width := by
  rw [← toValue_uint_of_writeInstr h, FieldType.toValue_uint]
  exact Nat.mod_lt _ (Nat.pow_pos (by decide))

/-- The bytes that WRITE.T leaves at the offset spell the value written (R136, R148). -/
theorem leNat_memRead_written {T : FieldType} {o : Offset} {v : Value} {i : Instr} {m : Memory} (hwf : m.wf)
    (h : T.writeInstr o v = some i) (hin : o.toNat + T.width ≤ m.size) :
    leNat (memRead (memWrite m o.toNat (leBytes v.uint T.width)) o.toNat T.width) = v.uint := by
  have hrun := memRead_memWrite_same o.toNat (leBytes v.uint T.width) hwf (by rwa [leBytes_length])
  rw [leBytes_length] at hrun
  rw [hrun, leNat_leBytes, Nat.mod_eq_of_lt (uint_lt_of_writeInstr h)]

/-- READ.T where WRITE.T has written returns the value written (R148). -/
theorem readResponse_memWrite_same {T : FieldType} {o : Offset} {v : Value} {i : Instr} {m : Memory} (hwf : m.wf)
    (h : T.writeInstr o v = some i) (hin : o.toNat + T.width ≤ m.size) :
    readResponse T o (memWrite m o.toNat (leBytes v.uint T.width)) = .fieldType .ok (.rdata v) := by
  rw [readResponse, memWrite_size, if_pos hin, leNat_memRead_written hwf h hin, toValue_uint_of_writeInstr h]

/-- Bytes outside the run written are as before, so a READ.T of them returns what it did (R131, R148). -/
theorem readResponse_memWrite_other {T : FieldType} {o : Offset} {m : Memory} {a : Nat} {bs : Bytes} (hwf : m.wf)
    (hin : a + bs.length ≤ m.size) (hapart : o.toNat + T.width ≤ a ∨ a + bs.length ≤ o.toNat) :
    readResponse T o (memWrite m a bs) = readResponse T o m := by
  refine readResponse_congr (memWrite_size m a bs) fun i hi => ?_
  rw [readByte?_memWrite a bs hwf hin, if_neg (by omega)]

/-- Settles O45: the bytes at the offset are the value's, and those elsewhere are as before. -/
theorem readAfterWrite : Obligations.ReadAfterWrite := by
  intro s T o v i hwf hi hin
  refine ⟨_, exec_writeInstr_of_le hi hin, rfl, ?_, fun T' o' hapart => ⟨_, exec_readInstr_eq_respond T' o' s, ?_⟩⟩
  · rw [exec_readInstr_eq_respond, State.respond_buffer, State.setBuffer_buffer, readResponse_memWrite_same hwf hi hin]
    rfl
  · rw [← readResponse_memWrite_other (bs := leBytes v.uint T.width) hwf (by simpa using hin) (by simpa using hapart)]
    exact exec_readInstr_eq_respond T' o' _

/-- `le` of a part of a run is the part of `le` of the run that starts at its byte (R13, R46). -/
theorem leNat_memRead_part (m : Memory) (a : Nat) {k n w : Nat} (h : k + n ≤ w) :
    leNat (memRead m (a + k) n) = leNat (memRead m a w) / 256 ^ k % 256 ^ n := by
  obtain ⟨r, rfl⟩ := Nat.exists_eq_add_of_le h
  have hlow := leNat_lt (memRead m a k)
  have hpart := leNat_lt (memRead m (a + k) n)
  rw [memRead_length] at hlow hpart
  rw [Nat.add_assoc, leNat_memRead_add m a k (n + r), Nat.add_mul_div_left _ _ (Nat.pow_pos (by decide)),
    Nat.div_eq_of_lt hlow, Nat.zero_add, leNat_memRead_add m (a + k) n r, Nat.add_mul_mod_self_left,
    Nat.mod_eq_of_lt hpart]

/-- Settles O47: the narrow run is a part of the run written, and that spells the value. -/
theorem narrowReadOfWiderWrite : Obligations.NarrowReadOfWiderWrite := by
  intro s T T' o o' k v i hwf hi hin ho' hk
  refine ⟨_, _, exec_writeInstr_of_le hi hin, exec_readInstr_of_le ?_, ?_⟩
  · simp only [State.respond_buffer, State.setBuffer_buffer, memWrite_size]
    omega
  · rw [toValue_memRead_uint, ho', leNat_memRead_part _ _ hk, State.respond_buffer, State.setBuffer_buffer,
      leNat_memRead_written hwf hi hin]

/-! ### An emitted frame as the client buffer -/

/-- A byte of a sequence held as the client buffer, at an offset that 32 bits hold (R42, R134). -/
theorem readByte?_memoryOf_offset {f : Bytes} {k : Nat} (hk : k < f.length) (h32 : k < 2 ^ 32) :
    readByte? (memoryOf f) (BitVec.ofNat 32 k).toNat = some (f.getD k 0) := by
  rw [BitVec.toNat_ofNat, Nat.mod_eq_of_lt h32, readByte?_memoryOf, getElem?_eq_some_getD hk]

/-- Settles O51: the buffer's bytes are the frame's, so READ.U8 returns each of them and READ.U16 the length field. -/
theorem readsOnAnEmittedFrame : Obligations.ReadsOnAnEmittedFrame := by
  intro s f hvalid hbuffer
  obtain ⟨-, hmarker, hL, hlen, -⟩ := hvalid
  have hsize : s.buffer.size = f.length := by rw [hbuffer, memoryOf_size]
  have hbyte (k : Nat) (hk : k < f.length) := exec_readInstr_byte (s := s) (o := BitVec.ofNat 32 k)
    (hbuffer ▸ readByte?_memoryOf_offset hk (by omega))
  refine ⟨hsize.trans hlen, ?_, (hbyte 1 (by omega)).1, ?_, fun k hk => (hbyte _ (by omega)).1,
    (hbyte _ (by omega)).1, fun T o hout => exec_readInstr_of_lt (hsize ▸ hout)⟩
  · have hread := (hbyte 0 (by omega)).1
    rwa [hmarker] at hread
  · have hlow : readByte? s.buffer 2 = some (f.getD 2 0) := hbuffer ▸ readByte?_memoryOf_offset (k := 2) (by omega) (by decide)
    have hhigh : readByte? s.buffer 3 = some (f.getD 3 0) := hbuffer ▸ readByte?_memoryOf_offset (k := 3) (by omega) (by decide)
    have hin : 2 + 2 ≤ s.buffer.size := by omega
    exact (exec_readInstr_of_leNat (T := .u16) (o := 2) hin (leNat_memRead_half hlow hhigh)).1

end Sys2Proof.Machine
end

section
/-! WRITE.T (R135 to R149): the value that carries each number of a type, the bytes a WRITE.T leaves in the client buffer, and
the repetition of an operation (R50). -/

namespace Sys2Proof.Machine

/-! ### Two's complement (R11, R147) -/

/-- `sint` is the balanced residue, so the library's laws of `Int.bmod` hold of it. -/
theorem sintOf_eq_bmod {n v : Nat} (hn : 0 < n) (hv : v < 2 ^ n) : sintOf n v = Int.bmod v (2 ^ n) := by
  obtain ⟨k, rfl⟩ := Nat.exists_eq_add_of_lt hn
  simp only [Nat.zero_add, sintOf, Nat.add_sub_cancel] at *
  have hpow : (2 : Int) ^ (k + 1) = ((2 ^ (k + 1) : Nat) : Int) := by push_cast; rfl
  rw [hpow, Int.bmod_def, Int.emod_eq_of_lt (by omega) (by omega)]
  rw [Nat.pow_succ] at *
  split <;> split <;> omega

/-- `sint` reads a number from a vector exactly when the vector spells its residue and `n` bits have the number in range. -/
theorem sintOf_eq_iff {n v : Nat} {z : Int} (hn : 0 < n) (hv : v < 2 ^ n) :
    sintOf n v = z ↔ (-2 ^ (n - 1) ≤ z ∧ z < 2 ^ (n - 1)) ∧ v = (z % 2 ^ n).toNat := by
  rw [sintOf_eq_bmod hn hv, Int.bmod_eq_iff (Nat.two_pow_pos n), Int.dvd_iff_emod_eq_zero,
    ← Int.emod_eq_emod_iff_emod_sub_eq_zero]
  obtain ⟨k, rfl⟩ := Nat.exists_eq_add_of_lt hn
  have hpos : (0 : Int) < 2 ^ k := by positivity
  have hmod := Int.emod_nonneg z (b := 2 ^ (0 + k + 1)) (by positivity)
  rw [Int.emod_eq_of_lt (a := (v : Int)) (by omega) (by exact_mod_cast hv)]
  push_cast at *
  simp only [Nat.zero_add, pow_succ] at *
  omega

/-! ### Numbers and values (R69, R135, R146) -/

/-- A value of a type's width is a value of the type, given by its number (R135). -/
theorem toValue_uint_of_bits {T : FieldType} {v : Value} (h : v.bits = 8 * T.width) : T.toValue v.uint = v := by
  obtain ⟨i, hi⟩ := Option.ne_none_iff_exists'.1 (mt (FieldType.writeInstr_eq_none_iff T 0 v).1 (not_not.2 h))
  exact toValue_uint_of_writeInstr hi

theorem uint_lt_two_pow_bits (v : Value) : v.uint < 2 ^ v.bits := by
  cases v <;> exact BitVec.isLt _

/-- The value of a natural that fits the type is the one of the type's width that spells it (R112). -/
theorem toValue_eq_iff {T : FieldType} {n : Nat} {v : Value} (hn : n < 2 ^ (8 * T.width)) :
    T.toValue n = v ↔ v.bits = 8 * T.width ∧ v.uint = n := by
  constructor
  · rintro rfl
    rw [Nat.pow_mul] at hn
    exact ⟨T.toValue_bits n, (T.toValue_uint n).trans (Nat.mod_eq_of_lt hn)⟩
  · rintro ⟨hbits, rfl⟩
    exact toValue_uint_of_bits hbits

theorem width_pos (T : FieldType) : 0 < T.width := by
  cases T <;> decide

/-- The `wdata` of a number of a U type is the value that `uint` reads back as it (R135). -/
theorem unsignedWdata_eq_some_iff {T : FieldType} {z : Int} {v : Value} :
    unsignedWdata T z = some v ↔ v.bits = 8 * T.width ∧ (v.uint : Int) = z := by
  rw [unsignedWdata, Option.ite_none_right_eq_some, Option.some.injEq]
  constructor
  · rintro ⟨⟨h0, h1⟩, hv⟩
    lift z to Nat using h0
    obtain ⟨hbits, huint⟩ := (toValue_eq_iff (by exact_mod_cast h1)).1 hv
    exact ⟨hbits, congrArg Nat.cast huint⟩
  · rintro ⟨hbits, rfl⟩
    have hlt := uint_lt_two_pow_bits v
    rw [hbits] at hlt
    exact ⟨⟨Int.natCast_nonneg _, by exact_mod_cast hlt⟩, toValue_uint_of_bits hbits⟩

/-- The `wdata` of a number of an S type is the value that `sint` reads back as it (R135, R147). -/
theorem signedWdata_eq_some_iff {T : FieldType} {z : Int} {v : Value} :
    signedWdata T z = some v ↔ v.bits = 8 * T.width ∧ sintOf (8 * T.width) v.uint = z := by
  have hwidth : 0 < 8 * T.width := Nat.mul_pos (by decide) (width_pos T)
  have hpos : (0 : Int) < 2 ^ (8 * T.width) := by positivity
  have hresidue : (z % 2 ^ (8 * T.width)).toNat < 2 ^ (8 * T.width) := by
    rw [Int.toNat_lt (Int.emod_nonneg z hpos.ne')]
    exact_mod_cast Int.emod_lt_of_pos z hpos
  rw [signedWdata, Option.ite_none_right_eq_some, Option.some.injEq, toValue_eq_iff hresidue, and_left_comm]
  refine and_congr_right fun hbits => (sintOf_eq_iff hwidth ?_).symm
  exact hbits ▸ uint_lt_two_pow_bits v

/-! The client's side of the port, one equation for each kind of type and of number. -/

theorem wdataOf_int {T : FieldType} (hT : T ≠ .float) (z : Int) :
    T.wdataOf (.int z) = if T.signed then signedWdata T z else unsignedWdata T z := by
  cases T with
  | float => exact absurd rfl hT
  | _ => rfl

theorem wdataOf_floatBits {T : FieldType} (hT : T ≠ .float) (bits : BitVec 32) : T.wdataOf (.floatBits bits) = none := by
  cases T with
  | float => exact absurd rfl hT
  | _ => rfl

theorem number_of_ne_float {T : FieldType} (hT : T ≠ .float) (v : Value) :
    T.number v = .int (if T.signed then sintOf (8 * T.width) v.uint else v.uint) := by
  cases T with
  | float => exact absurd rfl hT
  | _ => rfl

/-- A 32-bit value carries the pattern that it reads back as, and no integer (R70, R151). -/
theorem wdataOf_float_eq_some_iff {n : Number} {v : Value} :
    FieldType.wdataOf .float n = some v ↔ v.bits = 32 ∧ FieldType.number .float v = n := by
  cases n with
  | int z => simp [FieldType.wdataOf, FieldType.number]
  | floatBits bits => cases v <;> simp [FieldType.wdataOf, FieldType.number, Value.uint, Value.bits, eq_comm]

/-- The `wdata` that carries a number is the value of the type's width that reads back as it (R135). -/
theorem wdataOf_eq_some_iff {T : FieldType} {n : Number} {v : Value} :
    T.wdataOf n = some v ↔ v.bits = 8 * T.width ∧ T.number v = n := by
  by_cases hT : T = .float
  · subst hT
    exact wdataOf_float_eq_some_iff
  rw [number_of_ne_float hT]
  cases n with
  | floatBits bits => simp [wdataOf_floatBits hT]
  | int z =>
    rw [wdataOf_int hT, Number.int.injEq]
    cases T.signed
    · exact unsignedWdata_eq_some_iff
    · exact signedWdata_eq_some_iff

/-- An integer in the range of a U type has as `wdata` the vector that spells its residue, which is the integer (R135). -/
theorem wdataOf_int_of_unsigned {T : FieldType} {z : Int} {v : Value} (hT : T ≠ .float) (hsigned : T.signed = false)
    (h0 : 0 ≤ z) (h1 : z < 2 ^ (8 * T.width)) (hbits : v.bits = 8 * T.width)
    (huint : v.uint = (z % (2 ^ (8 * T.width) : Nat)).toNat) : T.wdataOf (.int z) = some v := by
  push_cast at huint
  rw [wdataOf_int hT, hsigned, ← toValue_uint_of_bits hbits, huint, Int.emod_eq_of_lt h0 h1]
  exact unsignedWdata_of_range h0 h1

/-- An integer in the range of an S type has as `wdata` the vector that spells its residue (R135, R147). -/
theorem wdataOf_int_of_signed {T : FieldType} {z : Int} {v : Value} (hT : T ≠ .float) (hsigned : T.signed = true)
    (h0 : -(2 : Int) ^ (8 * T.width - 1) ≤ z) (h1 : z < 2 ^ (8 * T.width - 1)) (hbits : v.bits = 8 * T.width)
    (huint : v.uint = (z % (2 ^ (8 * T.width) : Nat)).toNat) : T.wdataOf (.int z) = some v := by
  push_cast at huint
  rw [wdataOf_int hT, hsigned, ← toValue_uint_of_bits hbits, huint]
  exact signedWdata_of_range h0 h1

theorem unsignedWdata_eq_none_iff {T : FieldType} {z : Int} :
    unsignedWdata T z = none ↔ z < 0 ∨ 2 ^ (8 * T.width) ≤ z := by
  simp only [unsignedWdata, ite_eq_right_iff, reduceCtorEq, imp_false, not_and_or, not_le, not_lt]

theorem signedWdata_eq_none_iff {T : FieldType} {z : Int} :
    signedWdata T z = none ↔ z < -2 ^ (8 * T.width - 1) ∨ 2 ^ (8 * T.width - 1) ≤ z := by
  simp only [signedWdata, ite_eq_right_iff, reduceCtorEq, imp_false, not_and_or, not_le, not_lt]

/-- Settles O50: a type's value of a number is the one that reads back as it, and the range tests refuse the other integers. -/
theorem numbersAndValues : Obligations.NumbersAndValues := by
  refine ⟨fun T v hbits => wdataOf_eq_some_iff.2 ⟨hbits, rfl⟩, fun T n v h => (wdataOf_eq_some_iff.1 h).symm, ?_, ?_,
    fun z => rfl, fun T bits hT => wdataOf_floatBits hT bits⟩
  · rintro T z (rfl | rfl | rfl | rfl) <;> exact unsignedWdata_eq_none_iff
  · rintro T z (rfl | rfl | rfl | rfl) <;> exact signedWdata_eq_none_iff

/-! ### What WRITE.T does (R136) -/

/-- Past the end of the buffer WRITE.T returns OutOfBounds and writes nothing (R136). -/
theorem exec_writeInstr_of_lt {T : FieldType} {o : Offset} {v : Value} {i : Instr} {s : State}
    (h : T.writeInstr o v = some i) (hout : s.buffer.size < o.toNat + T.width) :
    exec i s = .next (s.respond (.fieldType .outOfBounds .nothing)) := by
  rw [exec_of_writeInstr h]
  rcases writeField_cases T o v s with ⟨hin, -⟩ | ⟨-, hwrite⟩
  · omega
  · exact hwrite

/-- What a buffer holds after a number has been stored low byte first: its bytes there, every other byte as before (R13, R136). -/
theorem readByte?_memWrite_leBytes {m : Memory} {a w : Nat} (n : Nat) (hwf : m.wf) (hin : a + w ≤ m.size) (a' : Nat) :
    readByte? (memWrite m a (leBytes n w)) a' =
      if a ≤ a' ∧ a' < a + w then some (BitVec.ofNat 8 (n / 256 ^ (a' - a))) else readByte? m a' := by
  rw [readByte?_memWrite a _ hwf (by rwa [leBytes_length]), leBytes_length]
  exact ite_congr rfl (fun h => leBytes_getElem? n w (a' - a) (by omega)) fun _ => rfl

/-- Settles O53: in bounds only the bytes of the value are stored, else none. -/
theorem writeChangesOnlyItsBytes : Obligations.WriteChangesOnlyItsBytes := by
  intro T o v i s hi hwf
  rcases Nat.lt_or_ge s.buffer.size (o.toNat + T.width) with hout | hin
  · exact ⟨_, exec_writeInstr_of_lt hi hout, rfl, rfl, rfl, rfl, rfl, fun _ _ => rfl⟩
  · refine ⟨_, exec_writeInstr_of_le hi hin, rfl, rfl, rfl, rfl, memWrite_size _ _ _, fun a ha => ?_⟩
    rw [State.respond_buffer, State.setBuffer_buffer, readByte?_memWrite_leBytes _ hwf hin, if_neg (by omega)]

/-- Settles O46: each of the two writes stores its bytes and leaves the others, the later one on what the earlier one left. -/
theorem overlappingWrites : Obligations.OverlappingWrites := by
  intro s T T' o o' v v' i i' hwf hi hi' hin hin'
  have hsize (bs : Bytes) : o'.toNat + T'.width ≤ (memWrite s.buffer o.toNat bs).size := by rwa [memWrite_size]
  refine ⟨_, _, exec_writeInstr_of_le hi hin, exec_writeInstr_of_le hi' (hsize _), fun a => ?_⟩
  simp only [State.respond_buffer, State.setBuffer_buffer]
  rw [readByte?_memWrite_leBytes _ (memWrite_wf _ _ hwf) (hsize _), readByte?_memWrite_leBytes _ hwf hin]

/-! ### The bytes of each width -/

/-- Byte `k` of the number that a vector spells is the vector's slice `[8k+7 : 8k]` (R136). -/
theorem ofNat_div_pow_eq_extractLsb' {n : Nat} (x : BitVec n) (k : Nat) :
    BitVec.ofNat 8 (x.toNat / 256 ^ k) = x.extractLsb' (8 * k) 8 := by
  apply BitVec.eq_of_toNat_eq
  rw [BitVec.toNat_ofNat, BitVec.extractLsb'_toNat, Nat.shiftRight_eq_div_pow, Nat.pow_mul]

/-- In bounds WRITE.T stores the slices of the vector on the value port, low byte first, and nothing else; past the end of the
buffer it stores nothing (R136). -/
theorem exec_writeInstr_slices {T : FieldType} {o : Offset} {v : Value} {i : Instr} {n w : Nat} {x : BitVec n}
    (h : T.writeInstr o v = some i) (hx : v.uint = x.toNat) (hw : T.width = w) (s : State) :
    (s.buffer.wf → o.toNat + w ≤ s.buffer.size →
      ∃ m, exec i s = .next { s with buffer := m, response := some (.fieldType .ok .nothing) } ∧
        m.size = s.buffer.size ∧ m.wf ∧
        (∀ k, k < w → readByte? m (o.toNat + k) = some (x.extractLsb' (8 * k) 8)) ∧
        ∀ a, (a < o.toNat ∨ o.toNat + w ≤ a) → readByte? m a = readByte? s.buffer a) ∧
    (s.buffer.size < o.toNat + w → exec i s = .next { s with response := some (.fieldType .outOfBounds .nothing) }) := by
  subst hw
  refine ⟨fun hwf hin => ⟨_, exec_writeInstr_of_le h hin, memWrite_size _ _ _, memWrite_wf _ _ hwf, fun k hk => ?_,
    fun a ha => ?_⟩, exec_writeInstr_of_lt h⟩
  · rw [State.setBuffer_buffer, readByte?_memWrite_leBytes _ hwf hin, if_pos (by omega), Nat.add_sub_cancel_left,
      hx, ofNat_div_pow_eq_extractLsb']
  · rw [State.setBuffer_buffer, readByte?_memWrite_leBytes _ hwf hin, if_neg (by omega)]

/-- Settles O40: both types store the one slice of eight bits. -/
theorem writeByteTypes : Obligations.WriteByteTypes := by
  intro s o v
  refine ⟨decode_write_word (T := .u8) rfl, decode_write_word (T := .s8) rfl, fun i hi => ?_, fun z h0 h1 => ?_,
    fun z h0 h1 => ?_⟩
  · obtain ⟨T, hw, hwrite⟩ : ∃ T : FieldType, T.width = 1 ∧ T.writeInstr o (.w8 v) = some i := by
      rcases hi with rfl | rfl
      · exact ⟨.u8, rfl, rfl⟩
      · exact ⟨.s8, rfl, rfl⟩
    obtain ⟨hstores, hfaults⟩ := exec_writeInstr_slices (x := v) hwrite rfl hw s
    refine ⟨fun hwf hin => ?_, fun hout => hfaults (Nat.lt_succ_of_le hout)⟩
    obtain ⟨m, hexec, hsize, hwf', hbyte, hother⟩ := hstores hwf hin
    refine ⟨m, hexec, hsize, hwf', fun a => ?_⟩
    split_ifs with ha
    · rw [ha]
      exact (hbyte 0 (by decide)).trans (congrArg some BitVec.extractLsb'_eq_self)
    · exact hother a (by omega)
  · exact wdataOf_int_of_unsigned (T := .u8) (by decide) rfl h0 (h1.trans_lt (by decide)) rfl (BitVec.toNat_ofInt z)
  · exact wdataOf_int_of_signed (T := .s8) (by decide) rfl h0 (h1.trans_lt (by decide)) rfl (BitVec.toNat_ofInt z)

/-- Settles O41: both types store the two slices of eight bits. -/
theorem writeHalfTypes : Obligations.WriteHalfTypes := by
  intro s o v
  refine ⟨decode_write_word (T := .u16) rfl, decode_write_word (T := .s16) rfl, fun i hi => ?_, fun z h0 h1 => ?_,
    fun z h0 h1 => ?_⟩
  · obtain ⟨T, hw, hwrite⟩ : ∃ T : FieldType, T.width = 2 ∧ T.writeInstr o (.w16 v) = some i := by
      rcases hi with rfl | rfl
      · exact ⟨.u16, rfl, rfl⟩
      · exact ⟨.s16, rfl, rfl⟩
    obtain ⟨hstores, hfaults⟩ := exec_writeInstr_slices (x := v) hwrite rfl hw s
    refine ⟨fun hwf hin => ?_, hfaults⟩
    obtain ⟨m, hexec, hsize, hwf', hbyte, hother⟩ := hstores hwf hin
    refine ⟨m, hexec, hsize, hwf', fun a => ?_⟩
    split_ifs with hlow hhigh
    · rw [hlow]
      exact hbyte 0 (by decide)
    · rw [hhigh]
      exact hbyte 1 (by decide)
    · exact hother a (by omega)
  · exact wdataOf_int_of_unsigned (T := .u16) (by decide) rfl h0 (h1.trans_lt (by decide)) rfl (BitVec.toNat_ofInt z)
  · exact wdataOf_int_of_signed (T := .s16) (by decide) rfl h0 (h1.trans_lt (by decide)) rfl (BitVec.toNat_ofInt z)

/-- Settles O42: the three types store the four slices of eight bits, whatever the vector stands for. -/
theorem writeWordTypes : Obligations.WriteWordTypes := by
  intro s o v
  refine ⟨decode_write_word (T := .u32) rfl, decode_write_word (T := .s32) rfl, decode_write_word (T := .float) rfl, ?_,
    fun z h0 h1 => ?_, fun z h0 h1 => ?_, rfl⟩
  · rintro i (rfl | rfl | rfl)
    · exact exec_writeInstr_slices (T := .u32) (v := .w32 v) rfl rfl rfl s
    · exact exec_writeInstr_slices (T := .s32) (v := .w32 v) rfl rfl rfl s
    · exact exec_writeInstr_slices (T := .float) (v := .w32 v) rfl rfl rfl s
  · exact wdataOf_int_of_unsigned (T := .u32) (by decide) rfl h0 h1 rfl (BitVec.toNat_ofInt z)
  · exact wdataOf_int_of_signed (T := .s32) (by decide) rfl h0 h1 rfl (BitVec.toNat_ofInt z)

/-- Settles O43: both types store the eight slices of eight bits. -/
theorem writeDoubleTypes : Obligations.WriteDoubleTypes := by
  intro s o v
  refine ⟨decode_write_word (T := .u64) rfl, decode_write_word (T := .s64) rfl, ?_, fun z h0 h1 => ?_, fun z h0 h1 => ?_⟩
  · rintro i (rfl | rfl)
    · exact exec_writeInstr_slices (T := .u64) (v := .w64 v) rfl rfl rfl s
    · exact exec_writeInstr_slices (T := .s64) (v := .w64 v) rfl rfl rfl s
  · exact wdataOf_int_of_unsigned (T := .u64) (by decide) rfl h0 h1 rfl (BitVec.toNat_ofInt z)
  · exact wdataOf_int_of_signed (T := .s64) (by decide) rfl h0 h1 rfl (BitVec.toNat_ofInt z)

/-! ### Repetition (R50) -/

/-- An address below every listed one is not listed. -/
theorem cellAt_of_lt {a : Nat} {cells : List Host.Cell} (h : ∀ c ∈ cells, a < c.1) :
    cellAt a cells = Config.unlistedByte := by
  induction cells with
  | nil => rfl
  | cons c rest ih =>
    obtain ⟨hc, hrest⟩ := List.forall_mem_cons.1 h
    rw [cellAt, if_neg hc.ne', ih hrest]

/-- In a cell list in canonical form, putting back what an address holds changes nothing. -/
theorem putCell_cellAt (a : Nat) {cells : List Host.Cell} (hsorted : cells.Pairwise (fun x y => x.1 < y.1))
    (hlisted : ∀ c ∈ cells, c.2 ≠ Config.unlistedByte) : putCell a (cellAt a cells) cells = cells := by
  induction cells with
  | nil => simp [putCell, cellAt]
  | cons c rest ih =>
    obtain ⟨k, v⟩ := c
    obtain ⟨hk, hsorted'⟩ := List.pairwise_cons.1 hsorted
    obtain ⟨hv, hlisted'⟩ := List.forall_mem_cons.1 hlisted
    rcases Nat.lt_trichotomy a k with hlt | rfl | hgt
    · have habsent : cellAt a ((k, v) :: rest) = Config.unlistedByte :=
        cellAt_of_lt (List.forall_mem_cons.2 ⟨hlt, fun c hc => hlt.trans (hk c hc)⟩)
      rw [habsent, putCell, if_pos hlt, if_pos rfl]
    · rw [cellAt, if_pos rfl, putCell, if_neg (lt_irrefl a), if_pos rfl, if_neg hv]
    · rw [cellAt, if_neg hgt.ne, putCell, if_neg hgt.not_gt, if_neg hgt.ne', ih hsorted' hlisted']

/-- Writing the byte that a buffer holds changes nothing. -/
theorem writeByte_cellAt {m : Memory} (hwf : m.wf) (a : Nat) : writeByte m a (cellAt a m.cells) = m := by
  obtain ⟨hsorted, hcells⟩ := hwf
  unfold writeByte
  split
  · rw [putCell_cellAt a hsorted fun c hc => (hcells c hc).2]
  · rfl

/-- Writing the run of bytes that a buffer holds changes nothing. -/
theorem memWrite_memRead {m : Memory} (hwf : m.wf) (a n : Nat) : memWrite m a (memRead m a n) = m := by
  induction n generalizing a with
  | zero => rfl
  | succ n ih => rw [memRead, memWrite, writeByte_cellAt hwf, ih]

/-- A run written twice leaves what it leaves when written once. -/
theorem memWrite_memWrite_same {m : Memory} {a : Nat} {bs : Bytes} (hwf : m.wf) (hin : a + bs.length ≤ m.size) :
    memWrite (memWrite m a bs) a bs = memWrite m a bs := by
  have hagain := memWrite_memRead (memWrite_wf a bs hwf) a bs.length
  rwa [memRead_memWrite_same a bs hwf hin] at hagain

/-- Delivering nothing is returning nothing. -/
theorem deliver_nil (s : State) : deliver [] [] s = s.respond (.framer [] []) := by
  simp [deliver, State.addFrames, State.addDiags]

/-- Settles O49: a WRITE.T finds its bytes in the buffer or is out of bounds again, and REINIT finds the window empty. -/
theorem writeAndReinitAreIdempotent : Obligations.WriteAndReinitAreIdempotent := by
  refine ⟨fun s T o v i hwf hi => ?_, fun s => ⟨_, exec_reinit s, ?_⟩⟩
  · rcases Nat.lt_or_ge s.buffer.size (o.toNat + T.width) with hout | hin
    · exact ⟨_, exec_writeInstr_of_lt hi hout, exec_writeInstr_of_lt hi hout⟩
    · refine ⟨_, exec_writeInstr_of_le hi hin, ?_⟩
      rw [exec_writeInstr_of_le hi (by simpa using hin), State.respond_buffer, State.setBuffer_buffer,
        memWrite_memWrite_same hwf (by simpa using hin)]
      rfl
  · rw [exec_reinit, deliver_nil, deliver_nil]
    rfl

end Sys2Proof.Machine
end

section
/-! Failures and completion (60_exceptions.md): the numbers of the codes, the causes of the framer's local failures, what every
operation returns, and that no step faults under the invariant. -/

namespace Sys2Proof.Machine

/-! ### The codes (R22, R68, R165, R170) -/

/-- A type code names the type it is the code of, and no other (R68). -/
theorem ofCode_eq_some_iff (T : FieldType) (c : BitVec 4) : FieldType.ofCode c = some T ↔ T.code = c := by
  refine ⟨FieldType.code_of_ofCode, ?_⟩
  rintro rfl
  exact FieldType.ofCode_code T

/-- Settles O10: the tables are the model's own, and the type codes are read back from their table. -/
theorem codesAreTheSpecs : Obligations.CodesAreTheSpecs :=
  ⟨⟨rfl, rfl, rfl, rfl⟩, ⟨rfl, rfl⟩, ⟨rfl, rfl, rfl, rfl, rfl⟩, rfl, ofCode_eq_some_iff, fun _ => FieldType.ofCode_eq_none⟩

/-! ### The local failures (R169) -/

/-- The byte at the origin is no marker. -/
theorem verdict_noMarker_iff (W : Bytes) : verdict W = .fail .noMarker ↔ ∃ b rest, W = b :: rest ∧ b ≠ 0xFF#8 := by
  constructor
  · intro h
    rcases verdict_drop_cases (W := W) (by rw [h]; exact nofun) with
      ⟨hn, hm, -⟩ | ⟨-, ⟨-, -, he⟩ | ⟨-, -, -, he⟩ | ⟨-, -, -, he⟩⟩
    · obtain ⟨b, rest, rfl⟩ := List.exists_cons_of_length_pos hn
      exact ⟨b, rest, rfl, hm⟩
    all_goals cases h.symm.trans he
  · rintro ⟨b, rest, rfl, hb⟩
    exact verdict_noMarker (Nat.succ_pos _) hb

/-- A window with a marker and a whole header is its four header bytes and the rest (R62). -/
theorem eq_header_cons {W : Bytes} (hm : W.getD 0 0 = 0xFF#8) (hn : 4 ≤ W.length) :
    ∃ id lo hi rest, W = 0xFF#8 :: id :: lo :: hi :: rest := by
  match W, hn with
  | m :: id :: lo :: hi :: rest, _ =>
    obtain rfl : m = 0xFF#8 := hm
    exact ⟨id, lo, hi, rest, rfl⟩

/-- The header is whole and its length field is above 1024. -/
theorem verdict_lengthOversize_iff (W : Bytes) : verdict W = .fail .lengthOversize ↔
    ∃ id lo hi rest, W = 0xFF#8 :: id :: lo :: hi :: rest ∧ 1024 < lo.toNat + 256 * hi.toNat := by
  constructor
  · intro h
    rcases verdict_drop_cases (W := W) (by rw [h]; exact nofun) with
      ⟨-, -, he⟩ | ⟨hm, ⟨hn, hL, -⟩ | ⟨-, -, -, he⟩ | ⟨-, -, -, he⟩⟩
    case inr.inl =>
      obtain ⟨id, lo, hi, rest, rfl⟩ := eq_header_cons hm hn
      exact ⟨id, lo, hi, rest, rfl, hL⟩
    all_goals cases h.symm.trans he
  · rintro ⟨id, lo, hi, rest, rfl, hL⟩
    exact verdict_lengthOversize rfl (Nat.le_add_left 4 rest.length) hL

/-- The candidate is whole, its length field in range, and its checksum condition fails. -/
theorem verdict_checksumMismatch_iff (W : Bytes) : verdict W = .fail .checksumMismatch ↔
    ∃ id lo hi rest, W = 0xFF#8 :: id :: lo :: hi :: rest ∧ lo.toNat + 256 * hi.toNat ≤ 1024 ∧
      lo.toNat + 256 * hi.toNat + 1 ≤ rest.length ∧
      sumBytes (rest.take (lo.toNat + 256 * hi.toNat + 1)) % 256 ≠ 0 := by
  constructor
  · intro h
    rcases verdict_drop_cases (W := W) (by rw [h]; exact nofun) with
      ⟨-, -, he⟩ | ⟨hm, ⟨-, -, he⟩ | ⟨-, -, -, he⟩ | ⟨hL, hn, hs, -⟩⟩
    case inr.inr.inr =>
      obtain ⟨id, lo, hi, rest, rfl⟩ := eq_header_cons hm (by omega)
      exact ⟨id, lo, hi, rest, rfl, hL, Nat.le_of_add_le_add_right (b := 4) hn, hs⟩
    all_goals cases h.symm.trans he
  · rintro ⟨id, lo, hi, rest, rfl, hL, hn, hs⟩
    exact verdict_checksumMismatch rfl hL (Nat.add_le_add_right hn 4) hs

/-- Settles O19: the three verdicts by their conditions, and PUSH drops one byte on each verdict that does not wait. -/
theorem localFailures : Obligations.LocalFailures := by
  refine ⟨fun W => ⟨verdict_noMarker_iff W, verdict_lengthOversize_iff W, verdict_checksumMismatch_iff W⟩, ?_⟩
  intro s b hroom drops
  have drops_of_verdict : ∀ v, (∀ p, v ≠ .wait p) → verdict (s.window ++ [b]) = v → drops v.frames v.diags := by
    intro v hv h
    obtain ⟨t, fs, ds, hpush, hresponse, hloop⟩ := push_of_drop hroom h hv
    exact ⟨t, fs, ds, hpush, hloop, hresponse⟩
  exact ⟨drops_of_verdict _ nofun, drops_of_verdict _ nofun, drops_of_verdict _ nofun,
    fun f => drops_of_verdict (.emit f) nofun⟩

/-! ### Completion (R166, R176) -/

/-- Every operation is a framer operation, or the WIDTH, READ or WRITE of some type: so its own word says (R74). -/
theorem instr_cases (i : Instr) : (i = .reinit ∨ ∃ b, i = .push b) ∨
    ∃ T : FieldType, i = T.widthInstr ∨ (∃ o, i = T.readInstr o) ∨ ∃ o v, T.writeInstr o v = some i := by
  have hop := decode_encode i
  cases hc : encode i with
  | framer word =>
    rw [hc] at hop
    rcases decode_framer_cases word with ⟨b, hpush⟩ | hreinit
    · exact .inl (.inr ⟨b, Decoded.op.inj (hop.symm.trans hpush)⟩)
    · exact .inl (.inl (Decoded.op.inj (hop.symm.trans hreinit)))
  | fieldType word o v =>
    rw [hc] at hop
    rcases ftWord_cases word with h3 | ⟨h3, htype⟩ | ⟨T, rfl | rfl | rfl⟩
    · cases hop.symm.trans (decode_of_illegalOp o v h3)
    · cases hop.symm.trans (decode_of_illegalType o v h3 htype)
    · exact .inr ⟨T, .inl (Decoded.op.inj (hop.symm.trans (decode_width_word T o v)))⟩
    · exact .inr ⟨T, .inr (.inl ⟨o, Decoded.op.inj (hop.symm.trans (decode_read_word T o v))⟩)⟩
    · cases hwrite : T.writeInstr o v with
      | none => cases hop.symm.trans (decode_write_word_of_none hwrite)
      | some j =>
        obtain rfl := Decoded.op.inj (hop.symm.trans (decode_write_word hwrite))
        exact .inr ⟨T, .inr (.inr ⟨o, v, hwrite⟩)⟩

/-- A framer operation completes where the window has room, and returns frames and events (R15, R90, R94). -/
theorem exec_framer_completes {i : Instr} {s : State} (hi : i = .reinit ∨ ∃ b, i = .push b)
    (hroom : s.window.length < 1029) : ∃ t fs ds, exec i s = .next t ∧ t.response = some (.framer fs ds) := by
  rcases hi with rfl | ⟨b, rfl⟩
  · exact ⟨_, _, _, exec_reinit s, deliver_response _ _ _⟩
  · exact ⟨_, _, _, exec_push_of_room b hroom, deliver_response _ _ _⟩

/-- A field-type operation completes in every state: it returns OK, or returns OutOfBounds and changes nothing else (R166). -/
theorem exec_fieldType_completes {i : Instr} (hi : ¬ (i = .reinit ∨ ∃ b, i = .push b)) (s : State) :
    (∃ t r, exec i s = .next t ∧ t.response = some (.fieldType .ok r)) ∨
      exec i s = .next (s.respond (.fieldType .outOfBounds .nothing)) := by
  obtain ⟨T, rfl | ⟨o, rfl⟩ | ⟨o, v, hwrite⟩⟩ := (instr_cases i).resolve_left hi
  · exact .inl ⟨_, _, exec_widthInstr T s, State.respond_response _ _⟩
  · rw [exec_readInstr]
    rcases readField_cases T o s with ⟨-, h⟩ | ⟨-, h⟩
    · exact .inl ⟨_, _, h, State.respond_response _ _⟩
    · exact .inr h
  · rw [exec_of_writeInstr hwrite]
    rcases writeField_cases T o v s with ⟨-, h⟩ | ⟨-, h⟩
    · exact .inl ⟨_, _, h, State.respond_response _ _⟩
    · exact .inr h

/-- Settles O55: a framer operation returns no status, a field-type operation OK or OutOfBounds. -/
theorem everyOperationCompletes : Obligations.EveryOperationCompletes := by
  intro s i hroom
  by_cases hi : i = .reinit ∨ ∃ b, i = .push b
  · obtain ⟨t, fs, ds, hnext, hresponse⟩ := exec_framer_completes hi hroom
    exact ⟨t, _, hnext, hresponse, iff_of_true rfl hi, nofun, nofun, nofun⟩
  · rcases exec_fieldType_completes hi s with ⟨t, r, hnext, hresponse⟩ | hnext
    · exact ⟨t, _, hnext, hresponse, iff_of_false nofun hi, nofun, nofun, nofun⟩
    · exact ⟨_, _, hnext, State.respond_response _ _, iff_of_false nofun hi, fun _ => rfl, nofun, nofun⟩

/-! ### The host's moves and the step (R166, R182, R183) -/

/-- Only a WRITE word beside a value makes an ill-formed command (R135). -/
theorem write_word_of_ill_formed {c : Command} (h : c.wellFormed = false) :
    ∃ word o v, c = .fieldType word o v ∧ opField word = 2 := by
  cases c with
  | framer word => cases h
  | fieldType word o v =>
    refine ⟨word, o, v, rfl, ?_⟩
    by_contra hop
    cases h.symm.trans (wellFormed_of_not_write o v (.inl hop))

/-- Settles O4: the step's rules for idling and presenting; an ill-formed command has a WRITE word, and decoding refuses it. -/
theorem hostMovesOtherThanOperations : Obligations.HostMovesOtherThanOperations := by
  refine ⟨fun _ => step_of_idle, fun _ _ _ => step_of_present, fun s c rest hp hill => ⟨?_, ?_⟩⟩
  · obtain ⟨word, o, v, rfl, hop⟩ := write_word_of_ill_formed hill
    exact ⟨word, o, v, rfl, by rw [← opField_toNat, hop]; rfl⟩
  · obtain ⟨-, hrefused, -⟩ := decodingIsTotal
    exact step_of_wdataWidth hp ((hrefused c).2 hill)

/-- Settles O58: a quiescent window has room for any operation, and only an ill-formed command is refused. -/
theorem noStepFaults : Obligations.NoStepFaults := by
  intro s h
  cases hp : s.pending with
  | nil => exact .inl ⟨_, step_of_idle hp⟩
  | cons r rest =>
    cases r with
    | powerReset => exact .inl ⟨_, step_of_reset hp⟩
    | present m => exact .inl ⟨_, step_of_present hp⟩
    | issue c =>
      rcases decode_cases c with ⟨-, ⟨i, hd⟩ | hd | hd⟩ | ⟨hill, hd⟩
      · have hroom : (s.setPending rest).window.length < 1029 := Nat.lt_succ_of_le h.window.length_le
        obtain ⟨t, -, hnext, -⟩ := everyOperationCompletes _ i hroom
        exact .inl ⟨t, (step_of_op hp hd).trans hnext⟩
      · exact .inl ⟨_, step_of_illegalOp hp hd⟩
      · exact .inl ⟨_, step_of_illegalType hp hd⟩
      · exact .inr ⟨step_of_wdataWidth hp hd, c, rest, rfl, hill⟩

end Sys2Proof.Machine
end

/-! ### A reset between operations (R184 to R186) -/

namespace Sys2Proof.Machine

/-- Settles O3: the step is the reset of the state without the request, and a reset writes only the window and the response. -/
theorem powerResetEmptiesOnlyTheWindow : Obligations.PowerResetEmptiesOnlyTheWindow := by
  intro s rest hp
  refine ⟨powerReset (s.setPending rest), step_of_reset hp, powerReset_window _, ?frames, ?diags, ?buffer, ?pending⟩
  case frames => rw [powerReset_frames, State.setPending_frames]
  case diags => rw [powerReset_diags, State.setPending_diags]
  case buffer => rw [powerReset_buffer, State.setPending_buffer]
  case pending => rw [powerReset_pending, State.setPending_pending]

end Sys2Proof.Machine


section
/-! The two sub-blocks share no state (R56): a framer operation is a function of the window, a field-type operation one of the client
buffer, each writes only its own, and so the two commute. -/

namespace Sys2Proof.Machine

/-- What a framer operation leaves and delivers is fixed by the window alone (R90, R94). -/
theorem exec_framer_of_window {i : Instr} (hi : i = .reinit ∨ ∃ b, i = .push b) {W : Bytes} (hroom : W.length < 1029) :
    ∃ W' fs ds, ∀ s : State, s.window = W → exec i s = .next (deliver fs ds (s.setWindow W')) := by
  rcases hi with rfl | ⟨b, rfl⟩
  · exact ⟨[], [], [], fun s _ => exec_reinit s⟩
  · refine ⟨(rescan (W ++ [b])).window, (rescan (W ++ [b])).frames, (rescan (W ++ [b])).diags, ?_⟩
    rintro s rfl
    exact exec_push_of_room b hroom

/-- Putting back the buffer that stands on the port changes nothing. -/
theorem State.setBuffer_self (s : State) : s.setBuffer s.buffer = s := rfl

/-- What a field-type operation leaves in the buffer and returns is fixed by the buffer alone (R111, R112, R136). -/
theorem exec_fieldType_of_buffer {j : Instr} (hj : ¬ (j = .reinit ∨ ∃ b, j = .push b)) (m : Memory) :
    ∃ m' r, ∀ s : State, s.buffer = m → exec j s = .next ((s.setBuffer m').respond r) := by
  obtain ⟨T, rfl | ⟨o, rfl⟩ | ⟨o, v, hwrite⟩⟩ := (instr_cases j).resolve_left hj
  case inl =>
    refine ⟨m, .fieldType .ok (.width (BitVec.ofNat 4 T.width)), ?_⟩
    rintro s rfl
    rw [State.setBuffer_self, exec_widthInstr]
  case inr.inl =>
    refine ⟨m, readResponse T o m, ?_⟩
    rintro s rfl
    rw [State.setBuffer_self, exec_readInstr_eq_respond]
  case inr.inr =>
    rcases Nat.lt_or_ge m.size (o.toNat + T.width) with hout | hin
    · refine ⟨m, .fieldType .outOfBounds .nothing, ?_⟩
      rintro s rfl
      rw [State.setBuffer_self, exec_writeInstr_of_lt hwrite hout]
    · refine ⟨memWrite m o.toNat (leBytes v.uint T.width), .fieldType .ok .nothing, ?_⟩
      rintro s rfl
      exact exec_writeInstr_of_le hwrite hin

/-- Settles O54: neither operation writes what the other depends on, so each does in the second place what it does in the first. -/
theorem subBlocksCommute : Obligations.SubBlocksCommute := by
  intro s i j hi hreinit hpush hroom
  have hj : ¬ (j = .reinit ∨ ∃ b, j = .push b) := not_or.2 ⟨hreinit, not_exists.2 hpush⟩
  obtain ⟨W', fs, ds, hframer⟩ := exec_framer_of_window hi hroom
  obtain ⟨m', r, hfield⟩ := exec_fieldType_of_buffer hj s.buffer
  have hbuffer : (deliver fs ds (s.setWindow W')).buffer = s.buffer := by simp
  have hwindow : ((s.setBuffer m').respond r).window = s.window := by simp
  refine ⟨_, _, _, _, hframer s rfl, hfield _ hbuffer, hfield s rfl, hframer _ hwindow, ?_⟩
  simp

end Sys2Proof.Machine
end
